-- ==== Sys2Proof/Word.lean ====
section
/-!
DEFINITION. The words of the machine (a byte, an address) and the names the spec gives its registers, its flags and its
addressing mode.
-/

namespace Sys2Proof

/-- A byte: the width of acc, x, y, sp (R11 to R14), of a memory element (R17) and of an opcode (R51). -/
abbrev Byte := BitVec 8

/-- An address: 16 bits (R30), the width of pc (R15). -/
abbrev Addr := BitVec 16

/-- The 8-bit registers that the notation `R[r]` of 00_scope.md ranges over. -/
inductive Register where
  | acc | x | y | sp
deriving DecidableEq, Repr

/-- The seven condition flags, under the letters of R7 (R18). -/
inductive Flag where
  | C | Z | I | D | B | V | N
deriving DecidableEq, Repr

/-- The addressing modes: immediate alone (R50). -/
inductive AddressingMode where
  | immediate
deriving DecidableEq, Repr

end Sys2Proof
end

