-- ==== Sys2Proof/Config.lean ====
section
/-!
DEFINITION. The fixed parameters of this hardware (00_scope.md section 3, R6). The spec leaves no value open, so no free value
stands here. The opcode bytes and cycle costs are in the decode table of Decode.lean.
-/

namespace Sys2Proof.Config

/-- The length of the memory buffer, 0x10000 bytes (R17, C2); the `capacity` that ProgramTooLarge records (R94). -/
def memorySize : Nat := 0x10000

/-- Where a program is loaded (R112). -/
def loadAddress : Nat := 0

/-- What every byte of memory holds at construction (R22): what an address that memory does not list reads as. -/
def zeroedByte : Byte := 0x00

end Sys2Proof.Config
end

