-- ==== Sys2Proof/Syntax.lean ====
section
/-!
DEFINITION. The instructions: one constructor per row of spec/opcode_table.json.
-/

namespace Sys2Proof

/-- The instruction set (R2, R53), each with its operand `imm8` (R51). -/
inductive Instr where
  /-- LDA immediate, opcode 0x9A (R85). -/
  | lda (imm8 : Byte)
  /-- LDX immediate, opcode 0xA2 (R86). -/
  | ldx (imm8 : Byte)
deriving DecidableEq, Repr

end Sys2Proof
end

