-- ==== Sys2Proof/WellFormed.lean ====
section
/-!
DEFINITION. What is well formed: an instruction (all are), and a program that load_program accepts.
-/

namespace Sys2Proof

/-- An instruction is well formed: every one is, since "every operand byte is legal" (R85, R86) and an operand of another
width cannot be written (log 15). -/
def Instr.wellFormed : Instr → Bool
  | .lda _ => true
  | .ldx _ => true

/-- The check load_program makes before it copies anything (R113, R114): the program is no longer than memory. -/
def programFits (program : List Byte) : Bool :=
  decide (program.length ≤ Config.memorySize)

end Sys2Proof
end

