-- ==== Sys2Proof/Decode.lean ====
section
/-!
DEFINITION. The decode table as data (R53, R58, R66), the decoder over it, total on any bytes, and the encoder.
-/

namespace Sys2Proof

/-- The operation of a table entry (R53's mnemonic column). -/
inductive Operation where
  | lda | ldx
deriving DecidableEq, Repr

/-- An entry of the decode table (R66, with R53's columns): the operation, the register it writes, the addressing mode, the
fixed cycle cost and the flags it writes. -/
structure TableEntry where
  operation : Operation
  dest      : Register
  mode      : AddressingMode
  cycles    : Nat
  flags     : List Flag
deriving DecidableEq, Repr

/-- Why bytes are not an instruction. Only `unrecognizedOpcode` is an error of the machine (R90); the other two say that a
list of bytes ends too early, which memory never does (R32). -/
inductive DecodeError where
  | noOpcode
  | unrecognizedOpcode (byte : Byte)
  | missingOperand (opcode : Byte)
deriving DecidableEq, Repr

/-- The opcode of LDA immediate, not the historical TXS (R53, R55). -/
def opcodeLda : Byte := 0x9A

/-- The opcode of LDX immediate (R53). -/
def opcodeLdx : Byte := 0xA2

/-- R66's entry for 0x9A. -/
def entryLda : TableEntry :=
  { operation := .lda, dest := .acc, mode := .immediate, cycles := 2, flags := [.Z, .N] }

/-- R66's entry for 0xA2. -/
def entryLdx : TableEntry :=
  { operation := .ldx, dest := .x, mode := .immediate, cycles := 2, flags := [.Z, .N] }

/-- The opcode map: exactly two rows (R53). -/
def opcodeTable : List (Byte × TableEntry) :=
  [(opcodeLda, entryLda), (opcodeLdx, entryLdx)]

/-- `DecodeTable` (R66): the whole opcode byte is compared (R53), and a byte in no row has no entry (R54, R56). -/
def decodeTable (opcode : Byte) : Option TableEntry :=
  opcodeTable.lookup opcode

/-- The instruction of an entry's operation and its operand, the operand unmodified (R52). -/
def assemble (e : TableEntry) (operand : Byte) : Instr :=
  match e.operation with
  | .lda => .lda operand
  | .ldx => .ldx operand

/-- The table entry an instruction comes from. -/
def Instr.entry : Instr → TableEntry
  | .lda _ => entryLda
  | .ldx _ => entryLdx

/-- The operand of an instruction. -/
def Instr.operand : Instr → Byte
  | .lda v => v
  | .ldx v => v

/-- The decoder of a sequence of bytes (R57): the opcode byte is looked up, then immediate mode takes one further byte. It
answers the instruction and the bytes after it. -/
def decode : List Byte → Except DecodeError (Instr × List Byte)
  | [] => .error .noOpcode
  | opcode :: rest =>
    match decodeTable opcode with
    | none => .error (.unrecognizedOpcode opcode)
    | some e =>
      match e.mode, rest with
      | .immediate, [] => .error (.missingOperand opcode)
      | .immediate, operand :: rest' => .ok (assemble e operand, rest')

/-- Format IMM (R51): the opcode byte, then `imm8`. -/
def encode : Instr → List Byte
  | .lda v => [opcodeLda, v]
  | .ldx v => [opcodeLdx, v]

/-- The two bytes of the instruction whose bits are `w`, the first byte in bits 7 to 0 and the second in bits 15 to 8, with
every bit from `nbits` on zero (log 6). -/
def wordBytes (nbits w : Nat) : List Byte :=
  let u := w % 2 ^ nbits
  [BitVec.ofNat 8 u, BitVec.ofNat 8 (u / 0x100)]

/-- The instruction the decoder reads from those bytes. -/
def decodeTableWord (nbits w : Nat) : Option Instr :=
  match decode (wordBytes nbits w) with
  | .ok (i, _) => some i
  | .error _ => none

end Sys2Proof
end

