-- ==== Sys2Proof/Machine/State.lean ====
section
/-!
DEFINITION. The Processor State as plain data (R10), its value at construction (R22), and the reasons a step or a load stops.
-/

namespace Sys2Proof.Machine

/-- The memory buffer (R17) as a list of cells: an address that no cell lists reads as `Config.zeroedByte` (log 5). -/
abbrev Memory := List Host.Cell

/-- The canonical form: addresses strictly rising, each inside the buffer of 0x10000 bytes (R17), and no cell equal to what
an unlisted address reads as. Equal memories are then equal lists. -/
abbrev Memory.wf (m : Memory) : Prop :=
  m.Pairwise (fun p q => p.1 < q.1) ∧ ∀ c ∈ m, c.1 < Config.memorySize ∧ c.2 ≠ Config.zeroedByte

/-- The Processor State: R10's record, and nothing else (R27). The flags are seven separate bits (R18, R21). -/
structure State where
  acc : Byte
  x   : Byte
  y   : Byte
  sp  : Byte
  pc  : Addr
  C   : Bool
  Z   : Bool
  I   : Bool
  D   : Bool
  B   : Bool
  V   : Bool
  N   : Bool
  mem : Memory
deriving DecidableEq, Repr

/-- The two error kinds of 60_exceptions.md section 1. -/
inductive Fault where
  /-- Raised by a step whose opcode byte has no table entry, and by nothing else (R90). Safe: it is the machine's own error,
  and the state after it is the state before it (R69). -/
  | unrecognizedOpcode (byte : Byte)
  /-- Raised by load_program, and by construct with a program, when the program is longer than memory (R94, R111, R113); no
  step raises it. Safe: it is the machine's own error, and nothing is written (R114). -/
  | programTooLarge (requestedLen capacity : Nat)
deriving DecidableEq, Repr

/-- What the model gives no meaning. -/
inductive Refusal where
  /-- Raised by no one: every instruction of the opcode table has its meaning. It would be safe: the model stops where the
  hardware goes on. -/
  | notModelled (mnemonic : String)
deriving DecidableEq, Repr

/-- The zeroed configuration of construction (R22, R110): every register, flag and byte of memory is 0. -/
def State.reset : State :=
  { acc := 0x00, x := 0x00, y := 0x00, sp := 0x00, pc := 0x0000,
    C := false, Z := false, I := false, D := false, B := false, V := false, N := false,
    mem := [] }

end Sys2Proof.Machine
end

