-- ==== Sys2Proof/Machine/Ops.lean ====
section
/-!
DEFINITION. The named operations over memory, registers, flags and pc, and the one way an error is raised.
-/

namespace Sys2Proof.Machine

/-- The address translator: address `a` denotes buffer index `a` (R31). -/
def translate (a : Addr) : Nat := a.toNat

/-- The byte at a buffer index. -/
def Memory.read : Memory → Nat → Byte
  | [], _ => Config.zeroedByte
  | (k, b) :: rest, a => if k = a then b else Memory.read rest a

/-- Puts a cell before the first cell of a higher address. -/
def Memory.insertCell (c : Host.Cell) : Memory → Memory
  | [] => [c]
  | d :: rest => if c.1 < d.1 then c :: d :: rest else d :: Memory.insertCell c rest

/-- Writes the byte at a buffer index, in canonical form: a byte equal to what an unlisted index reads as is not listed. -/
def Memory.write (m : Memory) (a : Nat) (v : Byte) : Memory :=
  let others := m.filter (fun c => c.1 ≠ a)
  if v = Config.zeroedByte then others else Memory.insertCell (a, v) others

/-- `MemRead(a, 1)`, the only width (R36). -/
def State.readByte (s : State) (a : Addr) : Byte := s.mem.read (translate a)

/-- `MemWrite(a, 1, v)` (00_scope.md section 4). -/
def State.writeByte (s : State) (a : Addr) (v : Byte) : State :=
  { s with mem := s.mem.write (translate a) v }

/-- Bytes written one by one from an index upward (R113's loop). -/
def Memory.copyIn (m : Memory) (a : Nat) : List Byte → Memory
  | [] => m
  | b :: rest => Memory.copyIn (m.write a b) (a + 1) rest

/-- `R[r]`. -/
def State.readReg (s : State) : Register → Byte
  | .acc => s.acc
  | .x => s.x
  | .y => s.y
  | .sp => s.sp

/-- `R[r] <- v`: distinct storage, nothing hard-wired (R24). -/
def State.writeReg (s : State) (r : Register) (v : Byte) : State :=
  match r with
  | .acc => { s with acc := v }
  | .x => { s with x := v }
  | .y => { s with y := v }
  | .sp => { s with sp := v }

/-- `F[f]`. -/
def State.readFlag (s : State) : Flag → Bool
  | .C => s.C
  | .Z => s.Z
  | .I => s.I
  | .D => s.D
  | .B => s.B
  | .V => s.V
  | .N => s.N

/-- `F[f] <- b`. -/
def State.writeFlag (s : State) (f : Flag) (b : Bool) : State :=
  match f with
  | .C => { s with C := b }
  | .Z => { s with Z := b }
  | .I => { s with I := b }
  | .D => { s with D := b }
  | .B => { s with B := b }
  | .V => { s with V := b }
  | .N => { s with N := b }

/-- `FetchNext()` (R33): the byte at pc, and pc advanced by one modulo 0x10000 (R37). -/
def fetchNext (s : State) : Byte × State :=
  (s.readByte s.pc, { s with pc := s.pc + 1 })

/-- Raising an error ends the operation with the error's value for the host (R91, R92): nothing is saved, no mode changes and
control goes nowhere inside the core. There is no return from it but to call again (R93). -/
def raise (e : Fault) : Host.Outcome State Fault Refusal := .fault e

/-- Bytes stored one by one from an address upward, the address wrapping modulo 0x10000 as pc does (R37). -/
def State.storeBytes (s : State) (a : Addr) : List Byte → State
  | [] => s
  | b :: rest => State.storeBytes (s.writeByte a b) (a + 1) rest

end Sys2Proof.Machine
end

