-- ==== Sys2Proof/Machine/Flags.lean ====
section
/-!
DEFINITION. The Flag Update Policy (40_dispatch_engine.md section 2).
-/

namespace Sys2Proof.Machine

/-- `zero := (result == 0)` (R72). -/
def zeroOf (result : Byte) : Bool := result == 0x00

/-- `negative := (result & 0b1000_0000) != 0` (R73). -/
def negativeOf (result : Byte) : Bool := result &&& 0b1000_0000 != 0x00

/-- The policy on a result: Z and N are refreshed, each only where the opcode's table entry lists it (R67, R76), and no other
flag is touched (R75). -/
def flagUpdatePolicy (listed : List Flag) (result : Byte) (s : State) : State :=
  let s := if Flag.Z ∈ listed then s.writeFlag .Z (zeroOf result) else s
  if Flag.N ∈ listed then s.writeFlag .N (negativeOf result) else s

end Sys2Proof.Machine
end

