-- ==== Sys2Proof/Machine/LoadImmediate.lean ====
section
/-!
DEFINITION. The load-immediate instructions (41_load_immediate.md), run on the state the fetch leaves: pc already stands past
the instruction (R67, log 13).
-/

namespace Sys2Proof.Machine

/-- The execute part of R67 for an entry: the operand moves unchanged into the entry's register, then the Flag Update Policy
runs on the value written (R74). -/
def loadImmediate (e : TableEntry) (operand : Byte) (s : State) : Host.Outcome State Fault Refusal :=
  .next (flagUpdatePolicy e.flags operand (s.writeReg e.dest operand))

/-- LDA immediate (R85). -/
def execLda (imm8 : Byte) (s : State) : Host.Outcome State Fault Refusal :=
  loadImmediate entryLda imm8 s

/-- LDX immediate (R86). -/
def execLdx (imm8 : Byte) (s : State) : Host.Outcome State Fault Refusal :=
  loadImmediate entryLdx imm8 s

end Sys2Proof.Machine
end

