-- ==== Sys2Proof/Machine/Dispatch.lean ====
section
/-! DEFINITION. The dispatch: one arm per instruction. -/

namespace Sys2Proof.Machine

def exec (i : Instr) (s : State) : Host.Outcome State Fault Refusal :=
  match i with
  | .lda imm8 => Sys2Proof.Machine.execLda imm8 s
  | .ldx imm8 => Sys2Proof.Machine.execLdx imm8 s

end Sys2Proof.Machine
end

