-- ==== Sys2Proof/Machine/Operands.lean ====
section
/-!
DEFINITION. The operand forms: immediate alone (R50).
-/

namespace Sys2Proof.Machine

/-- Fetches the operand an addressing mode calls for: for immediate, "the single next byte" through FetchNext (R52, R67). -/
def fetchOperand (mode : AddressingMode) (s : State) : Byte × State :=
  match mode with
  | .immediate => fetchNext s

end Sys2Proof.Machine
end

