-- ==== Sys2Proof/Machine/Fetch.lean ====
section
/-!
DEFINITION. The fetch and decode part of a step (R67).
-/

namespace Sys2Proof.Machine

/-- Fetches and decodes the instruction at pc: the opcode byte is looked up; with no entry nothing is written and no operand
is read (R54, R57, R69); otherwise the opcode's FetchNext completes, the operand is fetched, and the answer is the instruction
and the state with pc past it. -/
def fetchInstr (s : State) : Except Fault (Instr × State) :=
  match decodeTable (s.readByte s.pc) with
  | none => .error (.unrecognizedOpcode (s.readByte s.pc))
  | some e =>
    let fetched := fetchOperand e.mode (fetchNext s).2
    .ok (assemble e fetched.1, fetched.2)

end Sys2Proof.Machine
end

