-- ==== Sys2Proof/Machine/Step.lean ====
section
/-!
DEFINITION. One step: fetch, decode, execute (R65, R67), atomic (R70).
-/

namespace Sys2Proof.Machine

/-- One call of `execute_one_instruction()`, less the cycle count it returns (Machine/HostInterface.lean, log 1). -/
def step (s : State) : Host.Outcome State Fault Refusal :=
  match fetchInstr s with
  | .error e => raise e
  | .ok (i, fetched) => exec i fetched

/-- The state with that instruction's bytes stored where the next step fetches: from pc upward (log 7). -/
def State.withFetchWord (s : State) (nbits w : Nat) : State :=
  s.storeBytes s.pc (wordBytes nbits w)

end Sys2Proof.Machine
end

