-- ==== Sys2Proof/Machine/HostInterface.lean ====
section
/-!
DEFINITION. The transaction interface through which a host drives the block (R3, R5, R25, R65, R110 to R115): construct, load a
program, execute one instruction, read the state; and the states a host can reach with it.
-/

namespace Sys2Proof.Machine

/-- `load_program(P)` (R113): too long a program is rejected before anything is written (R114); otherwise byte i goes to
address i (R112) and nothing else changes (R115). -/
def loadProgram (program : List Byte) (s : State) : Host.Outcome State Fault Refusal :=
  if programFits program then
    .next { s with mem := s.mem.copyIn Config.loadAddress program }
  else
    raise (.programTooLarge program.length Config.memorySize)

/-- `construct` (R110), optionally with an initial program (R111): the zeroed state, then load_program; an error gives no
instance. -/
def construct (program : Option (List Byte)) : Host.Outcome State Fault Refusal :=
  match program with
  | none => .next State.reset
  | some p => loadProgram p State.reset

/-- The result of `execute_one_instruction()` (R65): `Ok(cycles)` or an error; `refused` stands for a refusal of the model's,
which no instruction gives. -/
inductive StepResult where
  | ok (cycles : Nat)
  | err (e : Fault)
  | refused (r : Refusal)
deriving DecidableEq, Repr

/-- `execute_one_instruction()` (R65, R67) with the state after it: a step that executes returns its entry's cycle cost (R68),
and a failed one leaves the state as it was (R69, log 2). -/
def executeOneInstruction (s : State) : StepResult × State :=
  match fetchInstr s with
  | .error e => (.err e, s)
  | .ok (i, fetched) =>
    match exec i fetched with
    | .next s' => (.ok i.entry.cycles, s')
    | .fault e => (.err e, s)
    | .refused r => (.refused r, s)

/-- What a host can ask of an instance: load_program, one step, and the read-only accessors of R25. -/
inductive Request where
  | loadProgram (program : List Byte)
  | executeOneInstruction
  | readRegister (r : Register)
  | readPc
  | readFlag (f : Flag)
  | readMemory (a : Addr)
deriving DecidableEq, Repr

/-- What the host gets back. -/
inductive Response where
  | loaded
  | loadError (e : Fault)
  | loadRefused (r : Refusal)
  | executed (r : StepResult)
  | register (v : Byte)
  | pc (v : Addr)
  | flag (b : Bool)
  | memory (v : Byte)
deriving DecidableEq, Repr

/-- One host operation, run to completion (R121): its response and the state after it. -/
def serve (q : Request) (s : State) : Response × State :=
  match q with
  | .loadProgram p =>
    match loadProgram p s with
    | .next s' => (.loaded, s')
    | .fault e => (.loadError e, s)
    | .refused r => (.loadRefused r, s)
  | .executeOneInstruction => (.executed (executeOneInstruction s).1, (executeOneInstruction s).2)
  | .readRegister r => (.register (s.readReg r), s)
  | .readPc => (.pc s.pc, s)
  | .readFlag f => (.flag (s.readFlag f), s)
  | .readMemory a => (.memory (s.readByte a), s)

/-- Host operations one after another, in the order the host calls them (R121). -/
def serveAll : List Request → State → List Response × State
  | [], s => ([], s)
  | q :: rest, s =>
    let (answer, s1) := serve q s
    let (answers, s2) := serveAll rest s1
    (answer :: answers, s2)

end Sys2Proof.Machine
end

