-- ==== Sys2Proof/Safety.lean ====
section
/-!
DEFINITION. What claims call a stop, a run, a reachable state, and the invariant of reachable states (R26); and the spec's own
pseudocode over R10's record, which the machine is held against.
-/

namespace Sys2Proof.Safety

open Sys2Proof.Machine

/-- The machine is stopped at an unrecognized byte: its step raises that error (D15's "stopped at b"). -/
def StoppedAt (b : Byte) (s : State) : Prop := step s = .fault (.unrecognizedOpcode b)

/-- The state is one a host can bring about from construction (R26): construction with a program is construction and then a
load (R111). -/
def Reachable (s : State) : Prop := ∃ requests, (serveAll requests State.reset).2 = s

/-- R26's list, with memory in its canonical form (log 5). -/
structure Inv (s : State) : Prop where
  mem_wf     : s.mem.wf
  y_zero     : s.y = 0x00
  sp_zero    : s.sp = 0x00
  unused     : s.C = false ∧ s.I = false ∧ s.D = false ∧ s.B = false ∧ s.V = false
  pc_even    : s.pc.toNat % 2 = 0
  not_both   : ¬ (s.Z = true ∧ s.N = true)

/-- The host's driver: steps until `runEnd` says so of the state after a step and the step's result, or `fuel` is spent. The
predicate is the open parameter `run_end` (D15, U7, log 10); the core defines no halting policy (R77). -/
def drive (runEnd : State → StepResult → Bool) : Nat → State → List StepResult × State
  | 0, s => ([], s)
  | fuel + 1, s =>
    let (r, s1) := executeOneInstruction s
    if runEnd s1 r then ([r], s1)
    else
      let (rs, s2) := drive runEnd fuel s1
      (r :: rs, s2)

/-- R10's record in the notation of 00_scope.md section 4: registers `R`, flags `F`, `pc` and the buffer `M` of exactly 0x10000
bytes (R17). A yardstick for claims, not the machine's state. -/
structure Record where
  R  : Register → Byte
  F  : Flag → Bool
  pc : Fin 0x10000
  M  : Fin 0x10000 → Byte

/-- The record a state stands for. -/
def recordOf (s : State) : Record :=
  { R := s.readReg, F := s.readFlag, pc := s.pc.toFin, M := fun a => s.readByte (BitVec.ofFin a) }

/-- The zeroed record (R22). -/
def Record.zeroed : Record :=
  { R := fun _ => 0x00, F := fun _ => false, pc := 0, M := fun _ => 0x00 }

/-- R67's pseudocode, with R66's table read off inside it; sums of addresses are modulo 0x10000. -/
def Record.step (t : Record) : StepResult × Record :=
  let op := t.M t.pc
  if op = 0x9A ∨ op = 0xA2 then
    let operand := t.M (t.pc + 1)
    let dest : Register := if op = 0x9A then .acc else .x
    (.ok 2,
      { t with
        pc := t.pc + 1 + 1
        R := Function.update t.R dest operand
        F := Function.update (Function.update t.F .Z (decide (operand = 0x00))) .N (operand.getLsbD 7) })
  else
    (.err (.unrecognizedOpcode op), t)

/-- R113's pseudocode. -/
def Record.load (P : List Byte) (t : Record) : Response × Record :=
  if P.length > 0x10000 then
    (.loadError (.programTooLarge P.length 0x10000), t)
  else
    (.loaded, { t with M := fun a => P.getD a.val (t.M a) })

/-- One host operation on the record. -/
def Record.serve (q : Request) (t : Record) : Response × Record :=
  match q with
  | .loadProgram P => t.load P
  | .executeOneInstruction => (.executed t.step.1, t.step.2)
  | .readRegister r => (.register (t.R r), t)
  | .readPc => (.pc (BitVec.ofFin t.pc), t)
  | .readFlag f => (.flag (t.F f), t)
  | .readMemory a => (.memory (t.M a.toFin), t)

/-- The responses a host gets to its operations, on the record. -/
def Record.answers : List Request → Record → List Response
  | [], _ => []
  | q :: rest, t => (t.serve q).1 :: Record.answers rest (t.serve q).2

end Sys2Proof.Safety
end

