-- ==== Sys2Proof/Certificates/Slice0/Obligations.lean ====
section
/-!
DEFINITION. The statements for the provers. `R<n>` are rules of spec/; a clause that rests on a decision of the spec's own
(`D<n>`) or on a choice of the model (`log <n>`) says so.
-/

open Sys2Proof Sys2Proof.Machine Sys2Proof.Safety

/-! ## Encoding and decoding -/

/-- R51, R57: the decoder answers an instruction and the bytes after it exactly where the bytes are that instruction's encoding
followed by those bytes. So every well-formed instruction survives encoding, and each encoding has one meaning. -/
def Obligations.DecodeInvertsEncode : Prop :=
  ∀ (i : Instr) (bytes rest : List Byte), i.wellFormed = true →
    (decode bytes = .ok (i, rest) ↔ bytes = encode i ++ rest)

/-- R66: the decode table holds the two entries and no other. -/
def Obligations.DecodeTableHasTwoEntries : Prop :=
  decodeTable 0x9A =
      some { operation := .lda, dest := .acc, mode := .immediate, cycles := 2, flags := [.Z, .N] } ∧
    decodeTable 0xA2 =
      some { operation := .ldx, dest := .x, mode := .immediate, cycles := 2, flags := [.Z, .N] } ∧
    ∀ b : Byte, b ≠ 0x9A → b ≠ 0xA2 → decodeTable b = none

/-- Words written out bit by bit from R51 and R53's encodings decode to the instructions they stand for (W6, W9, V22, V31), and
0xA9 and 0x9B to none (V13, V8). -/
def Obligations.SampleWordsDecode : Prop :=
  decode [0b10011010, 0b01000010] = .ok (.lda 0x42, []) ∧
    decode [0b10011010, 0b10000000] = .ok (.lda 0x80, []) ∧
    decode [0b10100010, 0b11111111] = .ok (.ldx 0xFF, []) ∧
    decode [0b10100010, 0b00000000] = .ok (.ldx 0x00, []) ∧
    decode [0b10101001, 0b01000010] = .error (.unrecognizedOpcode 0xA9) ∧
    decode [0b10011011, 0b01000010] = .error (.unrecognizedOpcode 0x9B)

/-! ## The step -/

/-- Where the two bytes from pc on decode to an instruction, a step is `exec` of it on the state with pc two bytes on, which is
all a step adds around `exec` (R67; that exec runs on the fetched state is log 13). -/
def Obligations.StepRunsTheDecodedInstruction : Prop :=
  ∀ (s : State) (i : Instr), i.wellFormed = true →
    decode [s.readByte s.pc, s.readByte (s.pc + 1)] = .ok (i, []) →
    step s = exec i { s with pc := s.pc + 2 }

/-- R85, whole: LDA's encoding, and the step of opcode 0x9A from every state. The step is an equation, so it also says the
frame. -/
def Obligations.LdaStep : Prop :=
  (∀ v : Byte, encode (.lda v) = [0x9A, v] ∧ decode [0x9A, v] = .ok (.lda v, [])) ∧
  ∀ s : State, s.readByte s.pc = 0x9A →
    ∃ t : State,
      t = { s with
            acc := s.readByte (s.pc + 1)
            Z := decide (s.readByte (s.pc + 1) = 0x00)
            N := (s.readByte (s.pc + 1)).getLsbD 7
            pc := BitVec.ofNat 16 ((s.pc.toNat + 2) % 0x10000) } ∧
      step s = .next t ∧ executeOneInstruction s = (.ok 2, t)

/-- R86, whole: LDX's encoding, and the step of opcode 0xA2 from every state. -/
def Obligations.LdxStep : Prop :=
  (∀ v : Byte, encode (.ldx v) = [0xA2, v] ∧ decode [0xA2, v] = .ok (.ldx v, [])) ∧
  ∀ s : State, s.readByte s.pc = 0xA2 →
    ∃ t : State,
      t = { s with
            x := s.readByte (s.pc + 1)
            Z := decide (s.readByte (s.pc + 1) = 0x00)
            N := (s.readByte (s.pc + 1)).getLsbD 7
            pc := BitVec.ofNat 16 ((s.pc.toNat + 2) % 0x10000) } ∧
      step s = .next t ∧ executeOneInstruction s = (.ok 2, t)

/-- `exec` of each instruction answers a next state for every state and operand, and that state is the one its rule gives: the
operand in its register, Z and N from it, all else as it was (pc was moved by the fetch, log 13). -/
def Obligations.ExecCompletesWithItsResult : Prop :=
  ∀ (v : Byte) (s : State),
    exec (.lda v) s = .next { s with acc := v, Z := decide (v = 0x00), N := v.getLsbD 7 } ∧
    exec (.ldx v) s = .next { s with x := v, Z := decide (v = 0x00), N := v.getLsbD 7 }

/-- The frame of LDA and LDX under exec: they store nothing to memory, and change one register and Z and N. The clause that pc
stays is the model's choice (log 13): R85 and R86 move pc by 2 over the whole step, and here the fetch has moved it before exec
runs. -/
def Obligations.LoadImmediateFrame : Prop :=
  ∀ (i : Instr) (s t : State), exec i s = .next t →
    (∀ a : Addr, t.readByte a = s.readByte a) ∧ t.pc = s.pc ∧
    (∀ f, f ≠ Flag.Z → f ≠ Flag.N → t.readFlag f = s.readFlag f) ∧
    (∀ v, i = .lda v → ∀ r, r ≠ Register.acc → t.readReg r = s.readReg r) ∧
    (∀ v, i = .ldx v → ∀ r, r ≠ Register.x → t.readReg r = s.readReg r)

/-- R54: an opcode byte with no table entry raises UnrecognizedOpcode of that byte; 0x00, 0xFF and 0xA9 are such bytes, and so
are all but two. -/
def Obligations.UnlistedOpcodeRaises : Prop :=
  (∀ (s : State) (b : Byte), s.readByte s.pc = b → b ≠ 0x9A → b ≠ 0xA2 →
    decodeTable b = none ∧ step s = .fault (.unrecognizedOpcode b) ∧
      (executeOneInstruction s).1 = .err (.unrecognizedOpcode b)) ∧
  decodeTable 0x00 = none ∧ decodeTable 0xFF = none ∧ decodeTable 0xA9 = none ∧
  ((List.range 0x100).filter (fun n => (decodeTable (BitVec.ofNat 8 n)).isNone)).length = 254

/-- A failed step leaves the whole state, pc included. That pc is included is the spec's own decision (D2, log 2). -/
def Obligations.FailedStepLeavesTheState : Prop :=
  ∀ (s : State) (e : Fault), (executeOneInstruction s).1 = .err e → (executeOneInstruction s).2 = s

/-- A step either executes or raises the error of its own opcode byte: it meets no refusal, no ProgramTooLarge and no memory
fault, and load_program raises only ProgramTooLarge (R95 and R32, derived). LDA and LDX never raise UnrecognizedOpcode (R90). -/
def Obligations.OnlyErrorsOfTheirOwnOperation : Prop :=
  (∀ s : State, (∃ t, step s = .next t) ∨ step s = .fault (.unrecognizedOpcode (s.readByte s.pc))) ∧
  (∀ (s : State) (b : Byte), step s = .fault (.unrecognizedOpcode b) →
    s.readByte s.pc = b ∧ b ≠ 0x9A ∧ b ≠ 0xA2) ∧
  ∀ (p : List Byte) (s : State),
    (∃ t, loadProgram p s = .next t) ∨ loadProgram p s = .fault (.programTooLarge p.length 0x10000)

/-- `execute_one_instruction` and `step` are one: it returns Ok exactly where the step gives a next state, with that state; and
an error exactly where the step raises it, with the state unchanged (D2). Every Ok carries 2 cycles (R68; that a failure
carries none is D10, log 1). -/
def Obligations.ExecuteOneInstructionIsTheStep : Prop :=
  ∀ s : State,
    (∀ t, step s = .next t ↔ executeOneInstruction s = (.ok 2, t)) ∧
    (∀ e, step s = .fault e ↔ executeOneInstruction s = (.err e, s)) ∧
    (∀ n, (executeOneInstruction s).1 = .ok n → n = 2)

/-- After a failed step every further step fails alike, for however many (R93, derived; pc by D2). The driver's `run_end` is
the one that never holds (log 10). -/
def Obligations.UnrecognizedOpcodeIsAFixedPoint : Prop :=
  ∀ (s : State) (b : Byte) (k : Nat), StoppedAt b s →
    drive (fun _ _ => false) k s = (List.replicate k (.err (.unrecognizedOpcode b)), s)

/-- Over one step pc moves on by 2 modulo 0x10000 where the step executes (R16, derived), and stays where it fails (D2). -/
def Obligations.PcAdvancesByTwo : Prop :=
  ∀ s : State,
    (∀ t, step s = .next t → t.pc.toNat = (s.pc.toNat + 2) % 0x10000) ∧
    (∀ e, (executeOneInstruction s).1 = .err e → (executeOneInstruction s).2.pc = s.pc)

/-- The operand fetch across the top of memory, for both opcodes (R87, derived). -/
def Obligations.OperandWrapsAtTheTop : Prop :=
  ∀ (s : State) (e : TableEntry), decodeTable (s.readByte s.pc) = some e →
    (s.pc = 0xFFFF → ∃ t, step s = .next t ∧ t.readReg e.dest = s.readByte 0x0000 ∧ t.pc = 0x0001) ∧
    (s.pc = 0xFFFE → ∃ t, step s = .next t ∧ t.readReg e.dest = s.readByte 0xFFFF ∧ t.pc = 0x0000)

/-! ## Fetch and memory -/

/-- R33, R35, R37: FetchNext reads the byte at pc, advances pc by one modulo 0x10000, and changes nothing else; at 0xFFFF it
leaves pc 0. -/
def Obligations.FetchNextReadsAndAdvances : Prop :=
  ∀ s : State,
    fetchNext s =
      (s.readByte s.pc, { s with pc := BitVec.ofNat 16 ((s.pc.toNat + 1) % 0x10000) }) ∧
    (s.pc = 0xFFFF → fetchNext s = (s.readByte 0xFFFF, { s with pc := 0x0000 }))

/-- R38: no instruction writes memory; of all host operations only load_program can. -/
def Obligations.OnlyLoadProgramWritesMemory : Prop :=
  (∀ (i : Instr) (s t : State), exec i s = .next t → t.mem = s.mem) ∧
  (∀ s t : State, step s = .next t → t.mem = s.mem) ∧
  ∀ (q : Request) (s : State), (serve q s).2.mem ≠ s.mem → ∃ p, q = .loadProgram p

/-- R48: the highest address is readable and writable. -/
def Obligations.HighestAddressIsReadableAndWritable : Prop :=
  (∀ s : State, s.pc = 0xFFFF → (fetchNext s).1 = s.readByte 0xFFFF) ∧
  ∀ (p : List Byte) (s : State) (h : p.length = 0x10000),
    ∃ t, loadProgram p s = .next t ∧ t.readByte 0xFFFF = p[0xFFFF]

/-! ## Registers and flags -/

/-- R22: at construction every register, flag and byte of memory is zero; a program given to construct then overwrites memory
from address 0. -/
def Obligations.ConstructionIsZeroed : Prop :=
  construct none = .next State.reset ∧ (∀ r, State.reset.readReg r = 0x00) ∧ State.reset.pc = 0x0000 ∧
  (∀ f, State.reset.readFlag f = false) ∧ (∀ a : Addr, State.reset.readByte a = 0x00) ∧
  ∀ (p : List Byte) (t : State), construct (some p) = .next t →
    ∀ a : Addr, t.readByte a = if h : a.toNat < p.length then p[a.toNat] else 0x00

/-- R24: no banks, windows, aliases or hard-wired values: a register reads as what was last written to it, and a write of one
register or of pc changes no other. -/
def Obligations.RegistersAreDistinctStorage : Prop :=
  (∀ (s : State) (r : Register) (v : Byte),
    (s.writeReg r v).readReg r = v ∧ (∀ r', r' ≠ r → (s.writeReg r v).readReg r' = s.readReg r') ∧
      (s.writeReg r v).pc = s.pc) ∧
  (∀ (s : State) (r : Register), (fetchNext s).2.readReg r = s.readReg r) ∧
  ∀ (s t : State) (v : Byte),
    (exec (.lda v) s = .next t → t.x = s.x) ∧ (exec (.ldx v) s = .next t → t.acc = s.acc)

/-- R72, R73: after a step that executes, Z and N describe the value in the register it wrote (the register of its opcode's
entry): Z is whether it is zero, N whether its bit 7 is set. -/
def Obligations.ZeroAndNegativeDescribeTheLoadedValue : Prop :=
  ∀ (s t : State) (e : TableEntry), decodeTable (s.readByte s.pc) = some e → step s = .next t →
    t.Z = decide (t.readReg e.dest = 0x00) ∧
    t.N = (t.readReg e.dest).getLsbD 7 ∧
    (t.N = true ↔ t.readReg e.dest &&& 0b1000_0000 ≠ 0)

/-- R75: the Flag Update Policy touches no flag but Z and N, whatever an entry lists, and a step of LDA or LDX leaves C, V, D, I
and B. -/
def Obligations.OtherFlagsAreNeverTouched : Prop :=
  (∀ (listed : List Flag) (v : Byte) (s : State) (f : Flag), f ∈ [Flag.C, .V, .D, .I, .B] →
    (flagUpdatePolicy listed v s).readFlag f = s.readFlag f) ∧
  ∀ s t : State, step s = .next t → t.C = s.C ∧ t.V = s.V ∧ t.D = s.D ∧ t.I = s.I ∧ t.B = s.B

/-- R19, R76: a step writes a flag only if its opcode's entry lists it, and a failed step writes none. The first clause says it
of the execute part under any entry at all. -/
def Obligations.FlagsWrittenOnlyWhereListed : Prop :=
  (∀ (e : TableEntry) (v : Byte) (s t : State) (f : Flag), loadImmediate e v s = .next t → f ∉ e.flags →
    t.readFlag f = s.readFlag f) ∧
  (∀ (s t : State) (e : TableEntry) (f : Flag), decodeTable (s.readByte s.pc) = some e → step s = .next t →
    f ∉ e.flags → t.readFlag f = s.readFlag f) ∧
  ∀ (s : State) (e : Fault) (f : Flag), (executeOneInstruction s).1 = .err e →
    (executeOneInstruction s).2.readFlag f = s.readFlag f

/-- R97: I is storage only: a step and a load do the same, and leave it, whichever value it holds. -/
def Obligations.InterruptMaskHasNoEffect : Prop :=
  ∀ (s : State) (b : Bool),
    executeOneInstruction (s.writeFlag .I b) =
      ((executeOneInstruction s).1, (executeOneInstruction s).2.writeFlag .I b) ∧
    ∀ p : List Byte,
      serve (.loadProgram p) (s.writeFlag .I b) =
        ((serve (.loadProgram p) s).1, (serve (.loadProgram p) s).2.writeFlag .I b)

/-- What a step does depends on pc and memory alone: no instruction reads a register or a flag (the tables of 10_state.md R10
and R20; for D and B this is D14). From two states that agree on pc and memory, the results agree, and so do pc, memory and
all that a step that executes writes. -/
def Obligations.StepReadsOnlyPcAndMemory : Prop :=
  ∀ s s' : State, s.pc = s'.pc → s.mem = s'.mem →
    (executeOneInstruction s).1 = (executeOneInstruction s').1 ∧
    (executeOneInstruction s).2.pc = (executeOneInstruction s').2.pc ∧
    (executeOneInstruction s).2.mem = (executeOneInstruction s').2.mem ∧
    ∀ e, decodeTable (s.readByte s.pc) = some e →
      (executeOneInstruction s).2.readReg e.dest = (executeOneInstruction s').2.readReg e.dest ∧
      ∀ f, f ∈ e.flags → (executeOneInstruction s).2.readFlag f = (executeOneInstruction s').2.readFlag f

/-- No host operation writes y, sp, C, I, D, B or V (the tables of R10 and R20; for load_program this is D3, log 3), and only
a step writes acc, x, Z, N or pc. -/
def Obligations.WhoWritesWhat : Prop :=
  ∀ (q : Request) (s : State),
    (∀ r, r ∈ [Register.y, .sp] → (serve q s).2.readReg r = s.readReg r) ∧
    (∀ f, f ∈ [Flag.C, .I, .D, .B, .V] → (serve q s).2.readFlag f = s.readFlag f) ∧
    (q ≠ .executeOneInstruction →
      (∀ r, (serve q s).2.readReg r = s.readReg r) ∧ (∀ f, (serve q s).2.readFlag f = s.readFlag f) ∧
        (serve q s).2.pc = s.pc)

/-! ## Host operations -/

/-- R112: a program is copied into memory from address 0, byte i to address i, by an explicit load and at construction. -/
def Obligations.ProgramIsCopiedFromAddressZero : Prop :=
  ∀ (p : List Byte) (s : State), p.length ≤ 0x10000 →
    (∃ t, loadProgram p s = .next t ∧ ∀ (i : Nat) (h : i < p.length), t.readByte (BitVec.ofNat 16 i) = p[i]) ∧
    ∃ t, construct (some p) = .next t ∧ ∀ (i : Nat) (h : i < p.length), t.readByte (BitVec.ofNat 16 i) = p[i]

/-- An accepted load writes nothing else: registers, flags, pc and the bytes after the program stay. This is the spec's own
decision (D3, log 3). -/
def Obligations.AcceptedLoadWritesOnlyTheProgram : Prop :=
  ∀ (p : List Byte) (s t : State), loadProgram p s = .next t →
    (∀ r, t.readReg r = s.readReg r) ∧ (∀ f, t.readFlag f = s.readFlag f) ∧ t.pc = s.pc ∧
    ∀ a : Addr, p.length ≤ a.toNat → t.readByte a = s.readByte a

/-- R94, R114: a program longer than memory raises ProgramTooLarge with its length and the capacity, and nothing is written. -/
def Obligations.OversizeLoadWritesNothing : Prop :=
  ∀ (p : List Byte) (s : State), 0x10000 < p.length →
    loadProgram p s = .fault (.programTooLarge p.length 0x10000) ∧
    serve (.loadProgram p) s = (.loadError (.programTooLarge p.length 0x10000), s)

/-- Construction with a program is construction and then a load; an oversize one reports ProgramTooLarge and gives no instance.
The last point is the spec's own decision (D4, log 4). -/
def Obligations.ConstructWithProgram : Prop :=
  ∀ p : List Byte,
    construct (some p) = loadProgram p State.reset ∧
    ((∃ t, construct (some p) = .next t) ↔ p.length ≤ 0x10000) ∧
    (0x10000 < p.length → construct (some p) = .fault (.programTooLarge p.length 0x10000))

/-- R118: loading the same bytes twice before a step ends in the same state as loading them once. Equal memories are equal data
only in canonical form, so that form is a premise (EveryRequestKeepsTheInvariant keeps it, log 5). -/
def Obligations.LoadingTwiceIsLoadingOnce : Prop :=
  ∀ (p : List Byte) (s : State), s.mem.wf →
    (serveAll [.loadProgram p, .loadProgram p, .executeOneInstruction] s).2 =
      (serveAll [.loadProgram p, .executeOneInstruction] s).2

/-- A step fetches what the last load put under pc, from every state and for every accepted program (R46, derived, with D11): the
bytes at pc and after it, the second at 0x0000 where pc is 0xFFFF, are the program's where it covers them and else what memory
held. Where the program ends at the opcode, only the opcode is the program's. That the load leaves pc and the bytes past the
program is the spec's own decision (D3, log 3); that exec runs on the state with pc two bytes on is the model's choice
(log 13). -/
def Obligations.StepSeesTheLoadedBytes : Prop :=
  ∀ (p : List Byte) (s t : State) (opcode operand : Byte), loadProgram p s = .next t →
    opcode = (if h : s.pc.toNat < p.length then p[s.pc.toNat] else s.readByte s.pc) →
    operand = (if h : (s.pc.toNat + 1) % 0x10000 < p.length then p[(s.pc.toNat + 1) % 0x10000]
      else s.readByte (s.pc + 1)) →
    (∀ i, decode [opcode, operand] = .ok (i, []) → step t = exec i { t with pc := s.pc + 2 }) ∧
    (decodeTable opcode = none → step t = .fault (.unrecognizedOpcode opcode))

/-- A step with no program loaded raises UnrecognizedOpcode(0x00) and leaves the zeroed state (R117, derived; pc by D2). -/
def Obligations.StepAtResetRaises : Prop :=
  StoppedAt 0x00 State.reset ∧
    executeOneInstruction State.reset = (.err (.unrecognizedOpcode 0x00), State.reset)

/-- The accessors read a register, pc, a flag or a byte and write nothing. The memory accessor is the spec's own decision (D9,
log 12). -/
def Obligations.AccessorsOnlyRead : Prop :=
  ∀ s : State,
    (∀ r, serve (.readRegister r) s = (.register (s.readReg r), s)) ∧ serve .readPc s = (.pc s.pc, s) ∧
    (∀ f, serve (.readFlag f) s = (.flag (s.readFlag f), s)) ∧
    ∀ a, serve (.readMemory a) s = (.memory (s.readByte a), s)

/-- The host's placing of an instruction under pc (log 7): the next step runs what the decoder reads from that word. That exec
runs on the state with pc two bytes on is the model's choice (log 13). The completion clause is of a word so placed. -/
def Obligations.PlacedWordRunsNext : Prop :=
  ∀ (s : State) (nbits w : Nat) (i : Instr), decodeTableWord nbits w = some i →
    step (s.withFetchWord nbits w) = exec i { s.withFetchWord nbits w with pc := s.pc + 2 } ∧
    ∃ t, step (s.withFetchWord nbits w) = .next t

/-! ## Invariants and refinement -/

/-- The invariant of reachable states holds at construction. -/
def Obligations.ResetMeetsTheInvariant : Prop := Inv State.reset

/-- From every state that meets the invariant (R26's list, and memory's canonical form), a step gives one that meets it. -/
def Obligations.EveryStepKeepsTheInvariant : Prop :=
  ∀ s t : State, Inv s → step s = .next t → Inv t

/-- So does every host operation, failed ones included. What a failed step and a load leave is the spec's own decision (D2, D3,
logs 2 and 3). -/
def Obligations.EveryRequestKeepsTheInvariant : Prop :=
  ∀ (q : Request) (s : State), Inv s → Inv (serve q s).2

/-- R26 (derived, with D2 and D3, logs 2 and 3): every state a host can bring about, by loading any programs and stepping, meets
the invariant, so no opcode is ever fetched from 0xFFFF and no operand from 0x0000. Its step lemmas are
EveryStepKeepsTheInvariant and EveryRequestKeepsTheInvariant. -/
def Obligations.ReachableStatesMeetTheInvariant : Prop :=
  ∀ s : State, Reachable s → Inv s ∧ s.pc ≠ 0xFFFF ∧ s.pc + 1 ≠ 0x0000

/-- A host that calls any operations in any order gets from the machine the answers that R67's and R113's pseudocode gives over
R10's record, from the zeroed state: the list that holds memory cannot be told from a buffer of 0x10000 bytes. That the
pseudocode's failed step leaves pc and its load leaves all else is the spec's own decision (D2, D3, logs 2 and 3). Its step
lemma is OperationsCommuteWithTheRecord. -/
def Obligations.HostSeesThePseudocode : Prop :=
  ∀ requests : List Request,
    (serveAll requests State.reset).1 = Record.answers requests Record.zeroed

/-- One host operation commutes with reading the state as R10's record, from every state (with D2 and D3, logs 2 and 3). -/
def Obligations.OperationsCommuteWithTheRecord : Prop :=
  ∀ (q : Request) (s : State),
    (serve q s).1 = ((recordOf s).serve q).1 ∧ recordOf (serve q s).2 = ((recordOf s).serve q).2
end

