-- ==== Sys2Proof/Laws/Decode.lean ====
section
/-!
SUPPORT. The decode table: its rows do not overlap, and what a lookup answers.
-/

namespace Sys2Proof

/-- No two rows of the decode table share an opcode byte. -/
theorem opcodeTable_unambiguous : opcodeTable.Pairwise (fun p q => p.1 ≠ q.1) := by decide

@[simp] theorem decodeTable_lda : decodeTable opcodeLda = some entryLda := by decide

@[simp] theorem decodeTable_ldx : decodeTable opcodeLdx = some entryLdx := by decide

/-- A byte that is the opcode of no row has no entry. -/
theorem decodeTable_none {b : Byte} (h : b ≠ opcodeLda) (h' : b ≠ opcodeLdx) : decodeTable b = none := by
  simp [decodeTable, opcodeTable, List.lookup, beq_false_of_ne h, beq_false_of_ne h']

/-- Everything a lookup can answer. -/
theorem decodeTable_cases (b : Byte) :
    (b = opcodeLda ∧ decodeTable b = some entryLda) ∨ (b = opcodeLdx ∧ decodeTable b = some entryLdx) ∨
      (b ≠ opcodeLda ∧ b ≠ opcodeLdx ∧ decodeTable b = none) := by
  by_cases h : b = opcodeLda
  · subst h; exact .inl ⟨rfl, decodeTable_lda⟩
  · by_cases h' : b = opcodeLdx
    · subst h'; exact .inr (.inl ⟨rfl, decodeTable_ldx⟩)
    · exact .inr (.inr ⟨h, h', decodeTable_none h h'⟩)

@[simp] theorem assemble_entry_operand (i : Instr) : assemble i.entry i.operand = i := by cases i <;> rfl

end Sys2Proof
end

