-- ==== Sys2Proof/Laws/State.lean ====
section
/-!
SUPPORT. One lemma per field per update of State: what each update gives and what it leaves.
-/

namespace Sys2Proof.Machine.State

variable (s : State) (r r' : Register) (f f' : Flag) (v : Byte) (b : Bool) (a : Addr)

@[simp] theorem readReg_writeReg_same : (s.writeReg r v).readReg r = v := by cases r <;> rfl

@[simp] theorem readReg_writeReg_other (h : r' ≠ r) : (s.writeReg r v).readReg r' = s.readReg r' := by
  cases r <;> cases r' <;> first | rfl | exact absurd rfl h

@[simp] theorem readFlag_writeReg : (s.writeReg r v).readFlag f = s.readFlag f := by cases r <;> rfl

@[simp] theorem pc_writeReg : (s.writeReg r v).pc = s.pc := by cases r <;> rfl

@[simp] theorem mem_writeReg : (s.writeReg r v).mem = s.mem := by cases r <;> rfl

@[simp] theorem readByte_writeReg : (s.writeReg r v).readByte a = s.readByte a := by cases r <;> rfl

@[simp] theorem readFlag_writeFlag_same : (s.writeFlag f b).readFlag f = b := by cases f <;> rfl

@[simp] theorem readFlag_writeFlag_other (h : f' ≠ f) : (s.writeFlag f b).readFlag f' = s.readFlag f' := by
  cases f <;> cases f' <;> first | rfl | exact absurd rfl h

@[simp] theorem readReg_writeFlag : (s.writeFlag f b).readReg r = s.readReg r := by cases f <;> rfl

@[simp] theorem pc_writeFlag : (s.writeFlag f b).pc = s.pc := by cases f <;> rfl

@[simp] theorem mem_writeFlag : (s.writeFlag f b).mem = s.mem := by cases f <;> rfl

@[simp] theorem readByte_writeFlag : (s.writeFlag f b).readByte a = s.readByte a := by cases f <;> rfl

@[simp] theorem readReg_withPc : State.readReg { s with pc := a } r = s.readReg r := by cases r <;> rfl

@[simp] theorem readFlag_withPc : State.readFlag { s with pc := a } f = s.readFlag f := by cases f <;> rfl

@[simp] theorem readByte_withPc (p : Addr) : State.readByte { s with pc := p } a = s.readByte a := rfl

@[simp] theorem readReg_withMem (m : Memory) : State.readReg { s with mem := m } r = s.readReg r := by cases r <;> rfl

@[simp] theorem readFlag_withMem (m : Memory) : State.readFlag { s with mem := m } f = s.readFlag f := by cases f <;> rfl

@[simp] theorem pc_writeByte : (s.writeByte a v).pc = s.pc := rfl

@[simp] theorem readReg_writeByte : (s.writeByte a v).readReg r = s.readReg r := by cases r <;> rfl

@[simp] theorem readFlag_writeByte : (s.writeByte a v).readFlag f = s.readFlag f := by cases f <;> rfl

/-- A state is its registers, its flags, its pc and its memory (R10). -/
theorem ext_of_reads {s t : State} (hr : ∀ r, s.readReg r = t.readReg r) (hf : ∀ f, s.readFlag f = t.readFlag f)
    (hp : s.pc = t.pc) (hm : s.mem = t.mem) : s = t := by
  have := hr .acc; have := hr .x; have := hr .y; have := hr .sp
  have := hf .C; have := hf .Z; have := hf .I; have := hf .D; have := hf .B; have := hf .V; have := hf .N
  cases s; cases t
  simp_all [readReg, readFlag]

end Sys2Proof.Machine.State
end

