-- ==== Sys2Proof/Laws/Load.lean ====
section
/-!
SUPPORT. What the Flag Update Policy and a load can do, said once.
-/

namespace Sys2Proof.Machine

variable (listed : List Flag) (v : Byte) (s : State)

@[simp] theorem readReg_flagUpdatePolicy (r : Register) : (flagUpdatePolicy listed v s).readReg r = s.readReg r := by
  unfold flagUpdatePolicy; split <;> split <;> simp

@[simp] theorem pc_flagUpdatePolicy : (flagUpdatePolicy listed v s).pc = s.pc := by
  unfold flagUpdatePolicy; split <;> split <;> simp

@[simp] theorem mem_flagUpdatePolicy : (flagUpdatePolicy listed v s).mem = s.mem := by
  unfold flagUpdatePolicy; split <;> split <;> simp

@[simp] theorem readFlag_Z_flagUpdatePolicy :
    (flagUpdatePolicy listed v s).readFlag .Z = if Flag.Z ∈ listed then zeroOf v else s.readFlag .Z := by
  unfold flagUpdatePolicy; split <;> split <;> simp

@[simp] theorem readFlag_N_flagUpdatePolicy :
    (flagUpdatePolicy listed v s).readFlag .N = if Flag.N ∈ listed then negativeOf v else s.readFlag .N := by
  unfold flagUpdatePolicy; split <;> split <;> simp

theorem readFlag_flagUpdatePolicy_other {f : Flag} (hz : f ≠ .Z) (hn : f ≠ .N) :
    (flagUpdatePolicy listed v s).readFlag f = s.readFlag f := by
  unfold flagUpdatePolicy; split <;> split <;> simp [hz, hn]

/-- The two forms of R73's condition agree. -/
theorem negativeOf_eq_bit7 (v : Byte) : negativeOf v = v.getLsbD 7 := by revert v; decide

/-- No byte is both zero and negative (R26's last point). -/
theorem not_zero_and_negative (v : Byte) : ¬ (zeroOf v = true ∧ negativeOf v = true) := by revert v; decide

/-- A meaning is its entry's load of its operand. -/
theorem exec_eq_loadImmediate (i : Instr) (s : State) : exec i s = loadImmediate i.entry i.operand s := by
  cases i <;> rfl

/-- Everything a load can do. -/
theorem loadImmediate_cases {e : TableEntry} {v : Byte} {s : State} {out : Host.Outcome State Fault Refusal}
    (h : loadImmediate e v s = out) :
    ∃ t, out = .next t ∧ t.readReg e.dest = v ∧ (∀ r, r ≠ e.dest → t.readReg r = s.readReg r) ∧
      (t.readFlag .Z = if Flag.Z ∈ e.flags then zeroOf v else s.readFlag .Z) ∧
      (t.readFlag .N = if Flag.N ∈ e.flags then negativeOf v else s.readFlag .N) ∧
      (∀ f, f ≠ .Z → f ≠ .N → t.readFlag f = s.readFlag f) ∧ t.pc = s.pc ∧ t.mem = s.mem :=
  ⟨_, h.symm, by simp, fun r hr => by simp [hr], by simp, by simp,
    fun f hz hn => by simp [readFlag_flagUpdatePolicy_other _ _ _ hz hn], by simp, by simp⟩

end Sys2Proof.Machine
end

