-- ==== Sys2Proof/Laws/Memory.lean ====
section
/-!
SUPPORT. Memory: reading after writing, the canonical form kept by every operation, and equal reads giving equal memories.
-/

namespace Sys2Proof.Machine.Memory

/-! ## Reading after writing -/

theorem read_of_not_listed {m : Memory} {a : Nat} (h : ∀ c ∈ m, c.1 ≠ a) : m.read a = Config.zeroedByte := by
  induction m with
  | nil => rfl
  | cons d rest ih => simp_all [read]

theorem read_filter_other (m : Memory) {a b : Nat} (h : b ≠ a) :
    Memory.read (m.filter (fun c => c.1 ≠ a)) b = m.read b := by
  induction m with
  | nil => rfl
  | cons d rest ih =>
    by_cases hd : d.1 = a
    · have : d.1 ≠ b := fun hb => h (hb.symm.trans hd)
      simp_all [read]
    · simp_all [read]

theorem read_insertCell (m : Memory) (a : Nat) (v : Byte) (b : Nat) (h : ∀ c ∈ m, c.1 ≠ a) :
    Memory.read (insertCell (a, v) m) b = if b = a then v else m.read b := by
  induction m with
  | nil => simp [insertCell, read, eq_comm]
  | cons d rest ih =>
    have hd : d.1 ≠ a := h d (by simp)
    have := ih fun c hc => h c (by simp [hc])
    by_cases hlt : a < d.1
    · simp [insertCell, hlt, read, eq_comm]
    · by_cases hb : d.1 = b
      · have : b ≠ a := fun e => hd (hb.trans e)
        rw [insertCell, if_neg hlt]; simp [read, hb, this]
      · rw [insertCell, if_neg hlt]; simp [read, hb, this]

/-- A write gives its byte at its own index and leaves every other index, whatever the list. -/
theorem read_write (m : Memory) (a : Nat) (v : Byte) (b : Nat) :
    (m.write a v).read b = if b = a then v else m.read b := by
  have off : ∀ c ∈ m.filter (fun c => c.1 ≠ a), c.1 ≠ a := by simp
  unfold write
  by_cases hv : v = Config.zeroedByte
  · by_cases hb : b = a
    · subst hb; simp only [hv, if_true]; exact read_of_not_listed off
    · simp only [hv, hb, if_true, if_false]; exact read_filter_other m hb
  · simp only [hv, if_false, read_insertCell _ a v b off]
    by_cases hb : b = a
    · simp [hb]
    · simp only [hb, if_false]; exact read_filter_other m hb

/-- After `copyIn`, index `b` holds the program's byte where the program covers it, and else what it held (R113). -/
theorem read_copyIn (p : List Byte) (m : Memory) (a b : Nat) :
    (m.copyIn a p).read b = if a ≤ b then p.getD (b - a) (m.read b) else m.read b := by
  induction p generalizing m a with
  | nil => simp [copyIn]
  | cons v rest ih =>
    rw [copyIn, ih, read_write]
    rcases Nat.lt_trichotomy b a with h | h | h
    · simp [show ¬ a ≤ b by omega, show ¬ a + 1 ≤ b by omega, show b ≠ a by omega]
    · subst h; simp
    · have : b - a = (b - (a + 1)) + 1 := by omega
      simp [show a ≤ b by omega, show a + 1 ≤ b by omega, show b ≠ a by omega, this]

/-! ## The canonical form -/

theorem mem_insertCell {c d : Host.Cell} {m : Memory} (h : d ∈ insertCell c m) : d = c ∨ d ∈ m := by
  induction m with
  | nil => simpa [insertCell] using h
  | cons e rest ih =>
    unfold insertCell at h
    split at h
    · simpa using h
    · rcases List.mem_cons.1 h with rfl | h
      · simp
      · rcases ih h with h | h <;> simp [h]

theorem insertCell_rising {c : Host.Cell} {m : Memory} (hm : m.Pairwise (fun p q => p.1 < q.1))
    (hc : ∀ d ∈ m, d.1 ≠ c.1) : (insertCell c m).Pairwise (fun p q => p.1 < q.1) := by
  induction m with
  | nil => simp [insertCell]
  | cons e rest ih =>
    have he : e.1 ≠ c.1 := hc e (by simp)
    obtain ⟨below, rising⟩ := List.pairwise_cons.1 hm
    unfold insertCell
    split
    · next hlt =>
      refine List.pairwise_cons.2 ⟨fun d hd => ?_, hm⟩
      rcases List.mem_cons.1 hd with rfl | hd
      · exact hlt
      · exact hlt.trans (below d hd)
    · refine List.pairwise_cons.2 ⟨fun d hd => ?_, ih rising fun d hd => hc d (by simp [hd])⟩
      rcases mem_insertCell hd with rfl | hd
      · omega
      · exact below d hd

/-- A write inside the buffer keeps the canonical form. -/
theorem wf_write {m : Memory} (h : m.wf) {a : Nat} (ha : a < Config.memorySize) (v : Byte) : (m.write a v).wf := by
  obtain ⟨rising, cells⟩ := h
  have rising' := List.Pairwise.filter (fun c => decide (c.1 ≠ a)) rising
  have cells' : ∀ c ∈ m.filter (fun c => c.1 ≠ a), c.1 < Config.memorySize ∧ c.2 ≠ Config.zeroedByte :=
    fun c hc => cells c (List.mem_filter.1 hc).1
  unfold write
  by_cases hv : v = Config.zeroedByte
  · simp only [hv, if_true]; exact ⟨rising', cells'⟩
  · simp only [hv, if_false]
    refine ⟨insertCell_rising rising' (by simp), fun c hc => ?_⟩
    rcases mem_insertCell hc with rfl | hc
    · exact ⟨ha, hv⟩
    · exact cells' c hc

/-- A copy that ends inside the buffer keeps the canonical form. -/
theorem wf_copyIn {m : Memory} (h : m.wf) {a : Nat} {p : List Byte} (hp : a + p.length ≤ Config.memorySize) :
    (m.copyIn a p).wf := by
  induction p generalizing m a with
  | nil => exact h
  | cons v rest ih =>
    simp only [List.length_cons] at hp
    exact ih (wf_write h (by omega) v) (by omega)

/-- What a listed index reads as. -/
theorem read_of_listed {m : Memory} (h : m.wf) {c : Host.Cell} (hc : c ∈ m) : m.read c.1 = c.2 := by
  obtain ⟨rising, -⟩ := h
  induction m with
  | nil => simp at hc
  | cons d rest ih =>
    obtain ⟨below, rising⟩ := List.pairwise_cons.1 rising
    rcases List.mem_cons.1 hc with rfl | hc
    · simp [read]
    · have := below c hc
      simp [read, show d.1 ≠ c.1 by omega, ih hc rising]

theorem listed_of_read {m : Memory} {a : Nat} (h : m.read a ≠ Config.zeroedByte) : (a, m.read a) ∈ m := by
  induction m with
  | nil => exact absurd rfl h
  | cons d rest ih =>
    by_cases hd : d.1 = a
    · subst hd; simp [read]
    · simp_all [read]

/-- Memories in canonical form that read alike inside the buffer are equal. -/
theorem eq_of_reads {m m' : Memory} (h : m.wf) (h' : m'.wf)
    (reads : ∀ a, a < Config.memorySize → m.read a = m'.read a) : m = m' := by
  have sub : ∀ {m m' : Memory}, m.wf → (∀ a, a < Config.memorySize → m.read a = m'.read a) → ∀ c ∈ m, c ∈ m' := by
    intro m m' h reads c hc
    obtain ⟨lt, ne⟩ := h.2 c hc
    have hr := read_of_listed h hc
    have hr' : m'.read c.1 = c.2 := by rw [← reads c.1 lt, hr]
    have := listed_of_read (m := m') (a := c.1) (by rw [hr']; exact ne)
    rwa [hr'] at this
  have nodup : ∀ {m : Memory}, m.wf → m.Nodup := by
    intro m h
    refine h.1.imp ?_
    rintro a b hlt rfl
    exact Nat.lt_irrefl _ hlt
  have same : ∀ c, c ∈ m ↔ c ∈ m' := fun c =>
    ⟨sub h reads c, sub h' (fun a ha => (reads a ha).symm) c⟩
  exact ((List.perm_ext_iff_of_nodup (nodup h) (nodup h')).2 same).eq_of_pairwise
    (fun _ _ _ _ hab hba => absurd hba (Nat.lt_asymm hab)) h.1 h'.1

end Sys2Proof.Machine.Memory

namespace Sys2Proof.Machine.State

/-- Reading a byte after writing one (`MemRead` after `MemWrite`). -/
theorem readByte_writeByte (s : State) (a : Addr) (v : Byte) (b : Addr) :
    (s.writeByte a v).readByte b = if b = a then v else s.readByte b := by
  simp only [writeByte, readByte, translate, Memory.read_write]
  by_cases h : b = a
  · simp [h]
  · simp [h, BitVec.toNat_inj]

/-- A write of one byte keeps memory's canonical form. -/
theorem wf_writeByte {s : State} (h : s.mem.wf) (a : Addr) (v : Byte) : (s.writeByte a v).mem.wf :=
  Memory.wf_write h (by have := a.isLt; simpa [translate, Config.memorySize] using this) v

/-- Storing bytes keeps memory's canonical form. -/
theorem wf_storeBytes {s : State} (h : s.mem.wf) (a : Addr) (bs : List Byte) : (s.storeBytes a bs).mem.wf := by
  induction bs generalizing s a with
  | nil => exact h
  | cons b rest ih => exact ih (wf_writeByte h a b) _

/-- Nothing but memory changes when bytes are stored. -/
theorem storeBytes_frame (s : State) (a : Addr) (bs : List Byte) :
    (s.storeBytes a bs).pc = s.pc ∧ (∀ r, (s.storeBytes a bs).readReg r = s.readReg r) ∧
      ∀ f, (s.storeBytes a bs).readFlag f = s.readFlag f := by
  induction bs generalizing s a with
  | nil => exact ⟨rfl, fun _ => rfl, fun _ => rfl⟩
  | cons b rest ih =>
    obtain ⟨h1, h2, h3⟩ := ih (s.writeByte a b) (a + 1)
    exact ⟨h1, fun r => (h2 r).trans (readReg_writeByte ..), fun f => (h3 f).trans (readFlag_writeByte ..)⟩

/-- State.reset's memory is in canonical form. -/
theorem reset_mem_wf : State.reset.mem.wf := by simp [reset, Memory.wf]

end Sys2Proof.Machine.State
end

