-- ==== Sys2Proof/Laws/Step.lean ====
section
/-!
SUPPORT. What a fetch and a step can do, said once.
-/

namespace Sys2Proof.Machine

@[simp] theorem fetchNext_fst (s : State) : (fetchNext s).1 = s.readByte s.pc := rfl

@[simp] theorem fetchNext_snd (s : State) : (fetchNext s).2 = { s with pc := s.pc + 1 } := rfl

/-- Two bytes on is one byte on, twice. -/
theorem add_one_add_one (a : Addr) : a + 1 + 1 = a + 2 := by rw [BitVec.add_assoc]; rfl

/-- The fetch where the opcode byte has an entry. -/
theorem fetchInstr_ok {s : State} {e : TableEntry} (h : decodeTable (s.readByte s.pc) = some e) :
    fetchInstr s = .ok (assemble e (s.readByte (s.pc + 1)), { s with pc := s.pc + 2 }) := by
  rw [← add_one_add_one]
  simp only [fetchInstr, h]
  cases e.mode
  rfl

/-- The fetch where it has none. -/
theorem fetchInstr_error {s : State} (h : decodeTable (s.readByte s.pc) = none) :
    fetchInstr s = .error (.unrecognizedOpcode (s.readByte s.pc)) := by
  simp only [fetchInstr, h]

/-- Everything a step can do: it runs the fetched instruction on the state with pc two bytes on, or raises the error of its
opcode byte. -/
theorem step_cases (s : State) :
    (∃ i, decodeTable (s.readByte s.pc) = some i.entry ∧ i.operand = s.readByte (s.pc + 1) ∧
      fetchInstr s = .ok (i, { s with pc := s.pc + 2 }) ∧ step s = exec i { s with pc := s.pc + 2 }) ∨
    (decodeTable (s.readByte s.pc) = none ∧ fetchInstr s = .error (.unrecognizedOpcode (s.readByte s.pc)) ∧
      step s = .fault (.unrecognizedOpcode (s.readByte s.pc))) := by
  rcases decodeTable_cases (s.readByte s.pc) with ⟨-, h⟩ | ⟨-, h⟩ | ⟨-, -, h⟩
  · exact .inl ⟨.lda (s.readByte (s.pc + 1)), h, rfl, fetchInstr_ok h, by simp only [step, fetchInstr_ok h]; rfl⟩
  · exact .inl ⟨.ldx (s.readByte (s.pc + 1)), h, rfl, fetchInstr_ok h, by simp only [step, fetchInstr_ok h]; rfl⟩
  · exact .inr ⟨h, fetchInstr_error h, by simp only [step, fetchInstr_error h, raise]⟩

/-- Where the next fetch reads after withFetchWord: its two bytes. -/
theorem withFetchWord_bytes (s : State) (nbits w : Nat) :
    (s.withFetchWord nbits w).pc = s.pc ∧
      (s.withFetchWord nbits w).readByte s.pc = BitVec.ofNat 8 (w % 2 ^ nbits) ∧
      (s.withFetchWord nbits w).readByte (s.pc + 1) = BitVec.ofNat 8 (w % 2 ^ nbits / 0x100) := by
  simp [State.withFetchWord, wordBytes, State.storeBytes, State.readByte_writeByte]

end Sys2Proof.Machine
end

