-- ==== Sys2Proof/Laws/HostInterface.lean ====
section
/-!
SUPPORT. What load_program and execute_one_instruction can do, said once.
-/

namespace Sys2Proof.Machine

/-- An accepted load. -/
theorem loadProgram_accepted {p : List Byte} (h : p.length ≤ Config.memorySize) (s : State) :
    loadProgram p s = .next { s with mem := s.mem.copyIn Config.loadAddress p } := by
  simp [loadProgram, programFits, h]

/-- A rejected load. -/
theorem loadProgram_rejected {p : List Byte} (h : Config.memorySize < p.length) (s : State) :
    loadProgram p s = .fault (.programTooLarge p.length Config.memorySize) := by
  simp [loadProgram, programFits, raise, Nat.not_le.2 h]

/-- What a byte reads as after a program is copied in at the load address. -/
theorem readByte_afterLoad (p : List Byte) (s : State) (a : Addr) :
    State.readByte { s with mem := s.mem.copyIn Config.loadAddress p } a = p.getD a.toNat (s.readByte a) := by
  simp [State.readByte, translate, Memory.read_copyIn, Config.loadAddress]

/-- Everything execute_one_instruction can do: it returns its entry's cycle cost and the state its step gives, or raises the
error of its opcode byte and leaves the state. -/
theorem executeOneInstruction_cases (s : State) :
    (∃ i t, decodeTable (s.readByte s.pc) = some i.entry ∧ i.operand = s.readByte (s.pc + 1) ∧
      exec i { s with pc := s.pc + 2 } = .next t ∧ step s = .next t ∧
      executeOneInstruction s = (.ok i.entry.cycles, t)) ∨
    (decodeTable (s.readByte s.pc) = none ∧ step s = .fault (.unrecognizedOpcode (s.readByte s.pc)) ∧
      executeOneInstruction s = (.err (.unrecognizedOpcode (s.readByte s.pc)), s)) := by
  rcases step_cases s with ⟨i, hd, ho, hf, hs⟩ | ⟨hd, hf, hs⟩
  · obtain ⟨t, ht, -⟩ := loadImmediate_cases (exec_eq_loadImmediate i { s with pc := s.pc + 2 }).symm
    exact .inl ⟨i, t, hd, ho, ht, hs.trans ht, by simp only [executeOneInstruction, hf, ht]⟩
  · exact .inr ⟨hd, hs, by simp only [executeOneInstruction, hf]⟩

/-- A host operation keeps memory's canonical form. -/
theorem serve_mem_wf (q : Request) {s : State} (h : s.mem.wf) : (serve q s).2.mem.wf := by
  cases q with
  | loadProgram p =>
    by_cases hp : p.length ≤ Config.memorySize
    · simp only [serve, loadProgram_accepted hp]
      exact Memory.wf_copyIn h (by simpa [Config.loadAddress] using hp)
    · simpa only [serve, loadProgram_rejected (Nat.lt_of_not_le hp)] using h
  | executeOneInstruction =>
    rcases executeOneInstruction_cases s with ⟨i, t, -, -, ht, -, he⟩ | ⟨-, -, he⟩
    · rw [exec_eq_loadImmediate] at ht
      obtain ⟨u, hu, -, -, -, -, -, -, hm⟩ := loadImmediate_cases ht
      cases hu
      simpa only [serve, he, hm] using h
    · simpa only [serve, he] using h
  | readRegister | readPc | readFlag | readMemory => exact h

end Sys2Proof.Machine
end

