-- ==== Sys2Proof/Laws/PerInstr.lean ====
section
/-!
SUPPORT. Statements about every instruction as syntax, one lemma per constructor.
-/

namespace Sys2Proof.Laws.EntryAgrees

/-- The encoding of an instruction is two bytes, a byte the decode table lists and the operand; the table gives that byte the
instruction's own entry; and the entry writes Z and N and costs 2 cycles (R51, R53). -/
def Statement (i : Instr) : Prop :=
  i.wellFormed = true ∧ (∃ opcode, encode i = [opcode, i.operand] ∧ decodeTable opcode = some i.entry) ∧
    i.entry.flags = [.Z, .N] ∧ i.entry.cycles = 2 ∧ i.entry.mode = .immediate

theorem lda (v : Byte) : Statement (.lda v) := ⟨rfl, ⟨opcodeLda, rfl, decodeTable_lda⟩, rfl, rfl, rfl⟩

theorem ldx (v : Byte) : Statement (.ldx v) := ⟨rfl, ⟨opcodeLdx, rfl, decodeTable_ldx⟩, rfl, rfl, rfl⟩

end Sys2Proof.Laws.EntryAgrees
end

