-- ==== Sys2Proof/Tests/Slice0.lean ====
section
/-!
SUPPORT. Tests, each with its expected result from spec/ (95_test_vectors.md's W and V numbers where it gives one), and a
witness of the hypotheses of every obligation that has some.
-/

namespace Sys2Proof.Tests

open Sys2Proof.Machine Sys2Proof.Safety

/-! ## Well-formedness: the check on a program refuses one that is too long (R113); the check on an instruction has no
ill-formed term (log 15) -/

theorem test_fits_refuses_one_byte_too_many : programFits (List.replicate 0x10001 0xEA) = false := by
  rw [programFits, List.length_replicate]; rfl

theorem test_fits_accepts_full_memory : programFits (List.replicate 0x10000 0x9A) = true := by
  rw [programFits, List.length_replicate]; rfl

theorem test_every_instruction_well_formed (v : Byte) : (Instr.lda v).wellFormed ∧ (Instr.ldx v).wellFormed := ⟨rfl, rfl⟩

/-! ## Decoding: words written out bit by bit from R51 and R53 -/

theorem test_decode_lda : decode [0b10011010, 0b01000010] = .ok (.lda 0x42, []) := rfl

theorem test_decode_ldx : decode [0b10100010, 0b11111111] = .ok (.ldx 0xFF, []) := rfl

/-- V5, V7 to V13: the neighbours, the bytes with bit 7 clear, and the historical LDA. -/
theorem test_decode_unlisted :
    ∀ b ∈ [(0x00 : Byte), 0x99, 0x9B, 0x1A, 0xA1, 0xA3, 0x22, 0xA9, 0xFF], decodeTable b = none := by decide

theorem test_decode_ends_early : decode [] = .error .noOpcode ∧ decode [0x9A] = .error (.missingOperand 0x9A) := ⟨rfl, rfl⟩

/-- Bit 0 is the least significant bit of the first byte; bits from `nbits` on are zero (log 6). -/
theorem test_table_word :
    decodeTableWord 16 0x429A = some (.lda 0x42) ∧ decodeTableWord 16 0xFFA2 = some (.ldx 0xFF) ∧
      decodeTableWord 8 0x429A = some (.lda 0x00) ∧ decodeTableWord 16 0x9A42 = none := ⟨rfl, rfl, rfl, rfl⟩

/-! ## Steps -/

/-- A state with nothing but pc and memory set. -/
def at_ (pc : Addr) (cells : Memory) : State := { State.reset with pc := pc, mem := cells }

/-- V26, V36's start: acc 55, x 66, y 77, sp FD, pc 0200, every flag 1. -/
def full (cells : Memory) : State :=
  { acc := 0x55, x := 0x66, y := 0x77, sp := 0xFD, pc := 0x0200,
    C := true, Z := true, I := true, D := true, B := true, V := true, N := true, mem := cells }

/-- V26. -/
theorem test_lda_keeps_other_flags :
    executeOneInstruction (full [(0x200, 0x9A), (0x201, 0x80)]) =
      (.ok 2, { full [(0x200, 0x9A), (0x201, 0x80)] with acc := 0x80, pc := 0x0202, Z := false }) := rfl

/-- V29: the operand of an opcode at FFFF is at 0000. -/
theorem test_lda_across_the_top :
    executeOneInstruction (at_ 0xFFFF [(0x0, 0x80), (0xFFFF, 0x9A)]) =
      (.ok 2, { at_ 0x0001 [(0x0, 0x80), (0xFFFF, 0x9A)] with acc := 0x80, N := true }) := rfl

/-- V36. -/
theorem test_ldx_keeps_other_flags :
    executeOneInstruction (full [(0x200, 0xA2)]) =
      (.ok 2, { full [(0x200, 0xA2)] with x := 0x00, pc := 0x0202, N := false }) := rfl

/-- V38: the flags describe x, not acc. -/
theorem test_ldx_flags_describe_x :
    executeOneInstruction { at_ 0x0002 [(0, 0x9A), (2, 0xA2), (3, 0xFF)] with Z := true } =
      (.ok 2, { at_ 0x0004 [(0, 0x9A), (2, 0xA2), (3, 0xFF)] with x := 0xFF, N := true }) := rfl

/-- V16, V18: a failed step changes nothing, pc included. -/
theorem test_unrecognized_changes_nothing :
    executeOneInstruction { at_ 0x0040 [(0x40, 0xEA)] with acc := 0x11, x := 0x22, N := true } =
      (.err (.unrecognizedOpcode 0xEA), { at_ 0x0040 [(0x40, 0xEA)] with acc := 0x11, x := 0x22, N := true }) ∧
    executeOneInstruction (at_ 0xFFFF []) = (.err (.unrecognizedOpcode 0x00), at_ 0xFFFF []) := ⟨rfl, rfl⟩

/-- 95_test_vectors.md section 2.5, rows 00, 7F, 80, FF. -/
theorem test_flag_policy :
    (zeroOf 0x00, negativeOf 0x00) = (true, false) ∧ (zeroOf 0x7F, negativeOf 0x7F) = (false, false) ∧
      (zeroOf 0x80, negativeOf 0x80) = (false, true) ∧ (zeroOf 0xFF, negativeOf 0xFF) = (false, true) := by decide

/-- V2, V3. -/
theorem test_fetchNext_wraps :
    fetchNext (at_ 0xFFFF [(0xFFFF, 0x5A)]) = (0x5A, at_ 0x0000 [(0xFFFF, 0x5A)]) ∧
      fetchNext (at_ 0x00FF [(0xFF, 0x01)]) = (0x01, at_ 0x0100 [(0xFF, 0x01)]) := ⟨rfl, rfl⟩

/-! ## Memory and host operations -/

/-- A write of the byte an unlisted address reads as removes the cell; cells stay in order. -/
theorem test_write_keeps_the_form :
    Memory.write [(1, 0x11), (3, 0x33)] 2 0x22 = [(1, 0x11), (2, 0x22), (3, 0x33)] ∧
      Memory.write [(1, 0x11), (3, 0x33)] 1 0x00 = [(3, 0x33)] := by decide

/-- The form refuses a cell out of order, one that holds 0x00, and one outside the buffer. -/
theorem test_form_refuses :
    ¬ Memory.wf [(2, 0x01), (1, 0x01)] ∧ ¬ Memory.wf [(1, 0x00)] ∧ ¬ Memory.wf [(0x10000, 0x01)] := by decide

/-- V43: the bytes after a shorter program are kept. -/
theorem test_load_keeps_the_tail :
    loadProgram [0xA2, 0x05] (at_ 0 [(0, 0x9A), (1, 0x01), (2, 0x9A), (3, 0x02)]) =
      .next (at_ 0 [(0, 0xA2), (1, 0x05), (2, 0x9A), (3, 0x02)]) := rfl

/-- V45: construct with 9A 42, then a step. -/
theorem test_construct_then_step :
    construct (some [0x9A, 0x42]) = .next (at_ 0 [(0, 0x9A), (1, 0x42)]) ∧
      step (at_ 0 [(0, 0x9A), (1, 0x42)]) = .next { at_ 2 [(0, 0x9A), (1, 0x42)] with acc := 0x42 } := ⟨rfl, rfl⟩

/-- At reset, placing an instruction under pc is loading it as a program (log 7). -/
theorem test_withFetchWord_is_a_load (w : Nat) :
    loadProgram (wordBytes 16 w) State.reset = .next (State.reset.withFetchWord 16 w) := rfl

/-- An instruction placed under pc after reset runs first (R85, R86, with operands 0x42 and 0x00). -/
theorem test_placed_word_runs :
    step (State.reset.withFetchWord 16 0x429A) = .next { at_ 2 [(0, 0x9A), (1, 0x42)] with acc := 0x42 } ∧
      step (State.reset.withFetchWord 8 0xA2) = .next { at_ 2 [(0, 0xA2)] with Z := true } := ⟨rfl, rfl⟩

/-! ## Witnesses: states and operands that meet the hypotheses of the obligations -/

/-- LDA #$80 at the start of memory. -/
def lda80 : State := at_ 0 [(0, 0x9A), (1, 0x80)]

/-- LDX #$00 at the start of memory, with Z and N as they are not after it. -/
def ldx00 : State := { at_ 0 [(0, 0xA2)] with N := true }

/-- The states those two steps give. -/
def lda80After : State := { lda80 with acc := 0x80, pc := 2, N := true }
def ldx00After : State := { ldx00 with pc := 2, Z := true, N := false }

theorem witness_DecodeInvertsEncode :
    (Instr.lda 0xFF).wellFormed = true ∧ decode [0x9A, 0xFF, 0x00] = .ok (.lda 0xFF, [0x00]) ∧
      [0x9A, 0xFF, 0x00] = encode (.lda 0xFF) ++ [0x00] := ⟨rfl, rfl, rfl⟩

theorem witness_DecodeTableHasTwoEntries : (0x00 : Byte) ≠ 0x9A ∧ (0x00 : Byte) ≠ 0xA2 := by decide

theorem witness_StepRunsTheDecodedInstruction :
    (Instr.ldx 0x80).wellFormed = true ∧
      decode [(at_ 0xFFFF [(0, 0x80), (0xFFFF, 0xA2)]).readByte 0xFFFF,
        (at_ 0xFFFF [(0, 0x80), (0xFFFF, 0xA2)]).readByte (0xFFFF + 1)] = .ok (.ldx 0x80, []) := ⟨rfl, rfl⟩

theorem witness_LdaStep : lda80.readByte lda80.pc = 0x9A := by decide

theorem witness_LdxStep : ldx00.readByte ldx00.pc = 0xA2 := by decide

theorem witness_LoadImmediateFrame :
    exec (.lda 0x80) (full []) = .next { full [] with acc := 0x80, Z := false } ∧
      exec (.ldx 0x00) (full []) = .next { full [] with x := 0x00, N := false } ∧
      Flag.C ≠ .Z ∧ Flag.C ≠ .N ∧ Register.x ≠ .acc ∧ Register.acc ≠ .x := by
  exact ⟨rfl, rfl, by decide, by decide, by decide, by decide⟩

theorem witness_UnlistedOpcodeRaises : (at_ 0 [(0, 0x9B)]).readByte 0 = 0x9B ∧ (0x9B : Byte) ≠ 0x9A ∧ (0x9B : Byte) ≠ 0xA2 := by
  decide

theorem witness_FailedStepLeavesTheState : (executeOneInstruction State.reset).1 = .err (.unrecognizedOpcode 0x00) := rfl

theorem witness_OnlyErrorsOfTheirOwnOperation :
    step (at_ 0 [(0, 0xFF)]) = .fault (.unrecognizedOpcode 0xFF) ∧ step lda80 = .next lda80After ∧
      loadProgram [] lda80 = .next lda80 := ⟨rfl, rfl, rfl⟩

theorem witness_ExecuteOneInstructionIsTheStep :
    step lda80 = .next lda80After ∧ (executeOneInstruction lda80).1 = .ok 2 ∧
      step State.reset = .fault (.unrecognizedOpcode 0x00) := ⟨rfl, rfl, rfl⟩

theorem witness_UnrecognizedOpcodeIsAFixedPoint : StoppedAt 0xFF (at_ 0 [(0, 0xFF)]) := rfl

theorem witness_PcAdvancesByTwo :
    step (at_ 0xFFFE [(0xFFFE, 0x9A), (0xFFFF, 0x33)]) =
        .next { at_ 0x0000 [(0xFFFE, 0x9A), (0xFFFF, 0x33)] with acc := 0x33 } ∧
      (executeOneInstruction (at_ 0xFFFF [])).1 = .err (.unrecognizedOpcode 0x00) := ⟨rfl, rfl⟩

theorem witness_OperandWrapsAtTheTop :
    decodeTable ((at_ 0xFFFF [(0xFFFF, 0xA2)]).readByte (at_ 0xFFFF [(0xFFFF, 0xA2)]).pc) = some entryLdx ∧
      decodeTable ((at_ 0xFFFE [(0xFFFE, 0x9A)]).readByte (at_ 0xFFFE [(0xFFFE, 0x9A)]).pc) = some entryLda ∧
      (at_ 0xFFFF [(0xFFFF, 0xA2)]).pc = 0xFFFF ∧ (at_ 0xFFFE [(0xFFFE, 0x9A)]).pc = 0xFFFE := by decide

theorem witness_FetchNextReadsAndAdvances : (at_ 0xFFFF []).pc = 0xFFFF := rfl

theorem witness_OnlyLoadProgramWritesMemory :
    exec (.lda 0x80) lda80 = .next { lda80 with acc := 0x80, N := true } ∧ step lda80 = .next lda80After ∧
      (serve (.loadProgram [0xA2]) lda80).2.mem ≠ lda80.mem := ⟨rfl, rfl, by decide⟩

theorem witness_HighestAddressIsReadableAndWritable :
    (at_ 0xFFFF []).pc = 0xFFFF ∧ (List.replicate 0x10000 (0x9A : Byte)).length = 0x10000 := ⟨rfl, List.length_replicate⟩

theorem witness_ConstructionIsZeroed : construct (some [0x9A, 0x80]) = .next lda80 := rfl

theorem witness_RegistersAreDistinctStorage :
    Register.sp ≠ .acc ∧ exec (.lda 0x80) lda80 = .next { lda80 with acc := 0x80, N := true } ∧
      exec (.ldx 0x80) lda80 = .next { lda80 with x := 0x80, N := true } := ⟨by decide, rfl, rfl⟩

theorem witness_ZeroAndNegativeDescribeTheLoadedValue :
    decodeTable (lda80.readByte lda80.pc) = some entryLda ∧ step lda80 = .next lda80After ∧
      decodeTable (ldx00.readByte ldx00.pc) = some entryLdx ∧ step ldx00 = .next ldx00After := ⟨rfl, rfl, rfl, rfl⟩

theorem witness_OtherFlagsAreNeverTouched : Flag.B ∈ [Flag.C, .V, .D, .I, .B] ∧ step lda80 = .next lda80After :=
  ⟨by decide, rfl⟩

/-- The first clause, with an entry that lists N alone, so that Z is a flag not listed. -/
theorem witness_FlagsWrittenOnlyWhereListed :
    loadImmediate { entryLda with flags := [.N] } 0x00 (full []) = .next { full [] with acc := 0x00, N := false } ∧
      Flag.Z ∉ [Flag.N] ∧ decodeTable (lda80.readByte lda80.pc) = some entryLda ∧ step lda80 = .next lda80After ∧
      Flag.V ∉ entryLda.flags ∧ (executeOneInstruction State.reset).1 = .err (.unrecognizedOpcode 0x00) :=
  ⟨rfl, by decide, rfl, rfl, by decide, rfl⟩

theorem witness_StepReadsOnlyPcAndMemory :
    (at_ 0x0200 [(0x200, 0x9A)]).pc = (full [(0x200, 0x9A)]).pc ∧
      (at_ 0x0200 [(0x200, 0x9A)]).mem = (full [(0x200, 0x9A)]).mem ∧
      decodeTable ((at_ 0x0200 [(0x200, 0x9A)]).readByte 0x0200) = some entryLda ∧ Flag.Z ∈ entryLda.flags := by decide

theorem witness_WhoWritesWhat :
    Register.y ∈ [Register.y, .sp] ∧ Flag.V ∈ [Flag.C, .I, .D, .B, .V] ∧
      Request.loadProgram [0x9A] ≠ .executeOneInstruction := by decide

theorem witness_ProgramIsCopiedFromAddressZero : (List.replicate 0x10000 (0x9A : Byte)).length ≤ 0x10000 := by
  rw [List.length_replicate]

theorem witness_AcceptedLoadWritesOnlyTheProgram :
    loadProgram [0xA2, 0x00] lda80 = .next (at_ 0 [(0, 0xA2)]) ∧ [(0xA2 : Byte), 0x00].length ≤ (0x0002 : Addr).toNat :=
  ⟨rfl, by decide⟩

theorem witness_OversizeLoadWritesNothing : 0x10000 < (List.replicate 0x10001 (0xEA : Byte)).length := by
  rw [List.length_replicate]; decide

theorem witness_ConstructWithProgram :
    (List.replicate 0x10000 (0x9A : Byte)).length ≤ 0x10000 ∧ 0x10000 < (List.replicate 0x10001 (0xEA : Byte)).length := by
  rw [List.length_replicate, List.length_replicate]; decide

theorem witness_LoadingTwiceIsLoadingOnce : lda80.mem.wf := by decide

/-- Both bytes the program's; the opcode its last byte, the operand what memory held; an opcode at 0xFFFF that memory held, the
operand the program's first byte; and an opcode with no entry. -/
theorem witness_StepSeesTheLoadedBytes :
    (loadProgram [0x9A, 0x80] State.reset = .next lda80 ∧ decode [(0x9A : Byte), 0x80] = .ok (.lda 0x80, [])) ∧
      (loadProgram [0x9A] (at_ 0 [(1, 0x80)]) = .next lda80 ∧ ¬ (0 + 1) % 0x10000 < [(0x9A : Byte)].length ∧
        (at_ 0 [(1, 0x80)]).readByte (0 + 1) = 0x80) ∧
      (loadProgram [0x33] (at_ 0xFFFF [(0xFFFF, 0xA2)]) = .next (at_ 0xFFFF [(0, 0x33), (0xFFFF, 0xA2)]) ∧
        ((at_ 0xFFFF []).pc.toNat + 1) % 0x10000 < [(0x33 : Byte)].length ∧
        decode [(at_ 0xFFFF [(0xFFFF, 0xA2)]).readByte 0xFFFF, 0x33] = .ok (.ldx 0x33, [])) ∧
      (loadProgram [0xFF, 0x80] State.reset = .next (at_ 0 [(0, 0xFF), (1, 0x80)]) ∧ decodeTable 0xFF = none) :=
  ⟨⟨rfl, rfl⟩, ⟨rfl, by decide, rfl⟩, ⟨rfl, by decide, rfl⟩, ⟨rfl, rfl⟩⟩

theorem witness_PlacedWordRunsNext :
    decodeTableWord 16 0x429A = some (.lda 0x42) ∧ decodeTableWord 8 0xA2 = some (.ldx 0x00) := ⟨rfl, rfl⟩

theorem witness_EveryStepKeepsTheInvariant : Inv lda80 ∧ step lda80 = .next lda80After :=
  ⟨⟨by decide, rfl, rfl, by decide, rfl, by decide⟩, rfl⟩

theorem witness_EveryRequestKeepsTheInvariant : Inv ldx00 := ⟨by decide, rfl, rfl, by decide, rfl, by decide⟩

theorem witness_ReachableStatesMeetTheInvariant : Reachable lda80After :=
  ⟨[.loadProgram [0x9A, 0x80], .executeOneInstruction], rfl⟩

end Sys2Proof.Tests
end

section
/-!
SUPPORT. Facts the obligations on registers and flags need: what the entry of a load leaves alone, the step as its entry's load,
and what an accepted load gives.
-/

namespace Sys2Proof.Machine

/-- R76: a load leaves each flag its entry does not list. -/
theorem loadImmediate_readFlag_unlisted {e : TableEntry} {v : Byte} {s t : State} {f : Flag}
    (h : loadImmediate e v s = .next t) (hf : f ∉ e.flags) : t.readFlag f = s.readFlag f := by
  obtain ⟨_, ⟨⟩, -, -, hZ, hN, hother, -, -⟩ := loadImmediate_cases h
  by_cases hfZ : f = .Z
  · subst hfZ
    rw [hZ, if_neg hf]
  · by_cases hfN : f = .N
    · subst hfN
      rw [hN, if_neg hf]
    · exact hother f hfZ hfN

/-- R24: an instruction leaves each register but the one its entry names. -/
theorem exec_readReg_other {i : Instr} {s t : State} {r : Register}
    (h : exec i s = .next t) (hr : r ≠ i.entry.dest) : t.readReg r = s.readReg r := by
  rw [exec_eq_loadImmediate] at h
  obtain ⟨_, ⟨⟩, -, hother, -⟩ := loadImmediate_cases h
  exact hother r hr

/-- R67: where the opcode byte has an entry, the step is that entry's load of the byte after it, with pc two bytes on. -/
theorem step_eq_loadImmediate {s : State} {e : TableEntry} (h : decodeTable (s.readByte s.pc) = some e) :
    step s = loadImmediate e (s.readByte (s.pc + 1)) { s with pc := s.pc + 2 } := by
  rcases step_cases s with ⟨i, hd, ho, -, hs⟩ | ⟨hd, -, -⟩
  · obtain rfl : i.entry = e := Option.some.inj (hd.symm.trans h)
    rw [hs, exec_eq_loadImmediate, ho]
  · simp [hd] at h

/-- R69: a step that reports an error leaves the whole state. -/
theorem executeOneInstruction_err_state {s : State} {e : Fault} (h : (executeOneInstruction s).1 = .err e) :
    (executeOneInstruction s).2 = s := by
  rcases executeOneInstruction_cases s with ⟨i, t, -, -, -, -, he⟩ | ⟨-, -, he⟩
  · simp [he] at h
  · rw [he]

/-- R113: a load that gives a state is an accepted one, and the state is the one with the program copied in. -/
theorem loadProgram_next_inv {p : List Byte} {s t : State} (h : loadProgram p s = .next t) :
    p.length ≤ Config.memorySize ∧ t = { s with mem := s.mem.copyIn Config.loadAddress p } := by
  rcases Nat.lt_or_ge Config.memorySize p.length with hp | hp
  · simp [loadProgram_rejected hp] at h
  · rw [loadProgram_accepted hp] at h
    cases h
    exact ⟨hp, rfl⟩

@[simp] theorem State.readReg_reset (r : Register) : State.reset.readReg r = 0x00 := by cases r <;> rfl

@[simp] theorem State.readFlag_reset (f : Flag) : State.reset.readFlag f = false := by cases f <;> rfl

@[simp] theorem State.readByte_reset (a : Addr) : State.reset.readByte a = 0x00 := rfl

end Sys2Proof.Machine
end

section
/-!
PROOFS. The obligations on registers and flags (10_state.md).
-/

namespace Sys2Proof.Machine

/-- Settles O23: a step is its entry's load, a load leaves the flags its entry does not list, and a failed step leaves all. -/
theorem flagsWrittenOnlyWhereListed : Obligations.FlagsWrittenOnlyWhereListed := by
  refine ⟨fun _ _ _ _ _ h hf => loadImmediate_readFlag_unlisted h hf, fun s t e f hd hs hf => ?_, fun s e f h => ?_⟩
  · rw [step_eq_loadImmediate hd] at hs
    exact (loadImmediate_readFlag_unlisted hs hf).trans (State.readFlag_withPc ..)
  · rw [executeOneInstruction_err_state h]

/-- Settles O19: with a program, construction is a load into the zeroed state, whose bytes are read back by
`readByte_afterLoad`. -/
theorem constructionIsZeroed : Obligations.ConstructionIsZeroed := by
  refine ⟨rfl, State.readReg_reset, rfl, State.readFlag_reset, State.readByte_reset, fun p t h a => ?_⟩
  obtain ⟨-, rfl⟩ := loadProgram_next_inv (s := State.reset) h
  rw [readByte_afterLoad, State.readByte_reset]
  split
  next hlt => exact List.getD_eq_getElem p _ hlt
  next hge => exact List.getD_eq_default p _ (Nat.le_of_not_lt hge)

/-- Settles O20: from the rules for reading after `writeReg` and after a move of pc, and from what an instruction leaves. -/
theorem registersAreDistinctStorage : Obligations.RegistersAreDistinctStorage := by
  refine ⟨fun s r v => ⟨?_, fun r' hr => ?_, ?_⟩, fun s r => ?_, fun s t v => ⟨fun h => ?_, fun h => ?_⟩⟩
  · exact s.readReg_writeReg_same r v
  · exact s.readReg_writeReg_other r r' v hr
  · exact s.pc_writeReg r v
  · exact s.readReg_withPc r _
  · exact exec_readReg_other (r := .x) h (by simp [Instr.entry, entryLda])
  · exact exec_readReg_other (r := .acc) h (by simp [Instr.entry, entryLdx])

end Sys2Proof.Machine
end

section
/-!
SUPPORT. Facts the obligations on fetch and memory need: pc's next address as R37 writes it, and that an instruction, a step and
an executed step leave memory.
-/

namespace Sys2Proof.Machine

/-- R37: adding one to an address is adding one to its number modulo 0x10000. -/
theorem add_one_eq_ofNat (a : Addr) : a + 1 = BitVec.ofNat 16 ((a.toNat + 1) % 0x10000) := by
  apply BitVec.eq_of_toNat_eq
  simp [BitVec.toNat_add]

/-- R38: an instruction leaves memory. -/
theorem exec_mem {i : Instr} {s t : State} (h : exec i s = .next t) : t.mem = s.mem := by
  rw [exec_eq_loadImmediate] at h
  obtain ⟨_, ⟨⟩, -, -, -, -, -, -, hmem⟩ := loadImmediate_cases h
  exact hmem

/-- R38: a step that executes leaves memory. -/
theorem step_mem {s t : State} (h : step s = .next t) : t.mem = s.mem := by
  rcases step_cases s with ⟨i, -, -, -, hs⟩ | ⟨-, -, hs⟩
  · exact exec_mem (s := { s with pc := s.pc + 2 }) (hs.symm.trans h)
  · simp [hs] at h

/-- R38, R69: the host's call of one instruction leaves memory, whether it executes or fails. -/
theorem executeOneInstruction_mem (s : State) : (executeOneInstruction s).2.mem = s.mem := by
  rcases executeOneInstruction_cases s with ⟨_, _, -, -, -, hs, he⟩ | ⟨-, -, he⟩
  · rw [he]
    exact step_mem hs
  · rw [he]

end Sys2Proof.Machine
end

section
/-!
PROOFS. The obligations on fetch and memory (20_memory.md).
-/

namespace Sys2Proof.Machine

/-- Settles O17: by cases on the host operation; the call of one instruction leaves memory because its step does, and the
accessors give back the state itself. -/
theorem onlyLoadProgramWritesMemory : Obligations.OnlyLoadProgramWritesMemory := by
  refine ⟨fun _ _ _ => exec_mem, fun _ _ => step_mem, fun q s changed => ?_⟩
  cases q with
  | loadProgram p => exact ⟨p, rfl⟩
  | executeOneInstruction => exact absurd (executeOneInstruction_mem s) changed
  | readRegister | readPc | readFlag | readMemory => exact absurd rfl changed

/-- Settles O18: a program of exactly memory's length is accepted, and its last byte is read back by `readByte_afterLoad`. -/
theorem highestAddressIsReadableAndWritable : Obligations.HighestAddressIsReadableAndWritable := by
  refine ⟨fun s hpc => ?_, fun p s h => ⟨_, loadProgram_accepted (Nat.le_of_eq h) s, ?_⟩⟩
  · rw [fetchNext_fst, hpc]
  · rw [readByte_afterLoad]
    exact List.getD_eq_getElem p _ (by simp [h])

/-- Settles O16: FetchNext is the read at pc and pc plus one, which at 0xFFFF is 0x0000. -/
theorem fetchNextReadsAndAdvances : Obligations.FetchNextReadsAndAdvances := by
  refine fun s => ⟨?_, fun hpc => ?_⟩
  · rw [← add_one_eq_ofNat]
    rfl
  · have wraps : (0xFFFF : Addr) + 1 = 0x0000 := by decide
    rw [fetchNext, hpc, wraps]

end Sys2Proof.Machine
end

section
/-!
SUPPORT. What the encoding obligation needs: when a byte has no entry, how many bytes have none, and what a step does at one.
-/

namespace Sys2Proof

/-- R53, R54: the bytes with no entry are those that are the opcode of no row. -/
theorem decodeTable_eq_none_iff {b : Byte} : decodeTable b = none ↔ b ≠ opcodeLda ∧ b ≠ opcodeLdx := by
  refine ⟨fun h => ⟨?_, ?_⟩, fun ⟨hlda, hldx⟩ => decodeTable_none hlda hldx⟩
  · rintro rfl
    simp at h
  · rintro rfl
    simp at h

/-- The numbers below 0x100 whose byte has no entry are all but the two opcodes' numbers. -/
theorem filter_unlisted_eq_erase :
    (List.range 0x100).filter (fun n => (decodeTable (BitVec.ofNat 8 n)).isNone) =
      ((List.range 0x100).erase opcodeLdx.toNat).erase opcodeLda.toNat := by
  have nodup : (List.range 0x100).Nodup := List.nodup_range
  rw [(nodup.erase _).erase_eq_filter, nodup.erase_eq_filter, List.filter_filter]
  refine List.filter_congr fun n hn => ?_
  have toNat_ofNat : (BitVec.ofNat 8 n).toNat = n := Nat.mod_eq_of_lt (List.mem_range.1 hn)
  rw [Bool.eq_iff_iff, Option.isNone_iff_eq_none, decodeTable_eq_none_iff]
  simp [← BitVec.toNat_inj, toNat_ofNat]

/-- R54, R56: 254 of the 256 opcode bytes have no entry. -/
theorem length_filter_unlisted :
    ((List.range 0x100).filter (fun n => (decodeTable (BitVec.ofNat 8 n)).isNone)).length = 254 := by
  have ldx_mem : opcodeLdx.toNat ∈ List.range 0x100 := List.mem_range.2 opcodeLdx.isLt
  have lda_mem : opcodeLda.toNat ∈ (List.range 0x100).erase opcodeLdx.toNat :=
    (List.mem_erase_of_ne (by decide)).2 (List.mem_range.2 opcodeLda.isLt)
  rw [filter_unlisted_eq_erase, List.length_erase_of_mem lda_mem, List.length_erase_of_mem ldx_mem, List.length_range]

end Sys2Proof

namespace Sys2Proof.Machine

/-- R54, R69: where the opcode byte has no entry, the step raises that byte's error, and so does the host's call, which leaves
the state. -/
theorem step_unlisted {s : State} (h : decodeTable (s.readByte s.pc) = none) :
    step s = .fault (.unrecognizedOpcode (s.readByte s.pc)) ∧
      executeOneInstruction s = (.err (.unrecognizedOpcode (s.readByte s.pc)), s) := by
  rcases executeOneInstruction_cases s with ⟨i, -, hd, -⟩ | ⟨-, hs, he⟩
  · simp [hd] at h
  · exact ⟨hs, he⟩

end Sys2Proof.Machine
end

section
/-!
PROOFS. The obligation on unlisted opcode bytes (30_encoding.md).
-/

namespace Sys2Proof.Machine

/-- Settles O9: a byte that is neither row's opcode has no entry, and at a byte with no entry the step raises its error; the
named bytes are neither opcode, and `length_filter_unlisted` counts them all. -/
theorem unlistedOpcodeRaises : Obligations.UnlistedOpcodeRaises := by
  refine ⟨fun s b hb hlda hldx => ?_, ?_, ?_, ?_, length_filter_unlisted⟩
  · subst hb
    have unlisted : decodeTable (s.readByte s.pc) = none := decodeTable_none hlda hldx
    obtain ⟨hstep, hexec⟩ := step_unlisted unlisted
    exact ⟨unlisted, hstep, congrArg Prod.fst hexec⟩
  · exact decodeTable_none (by decide) (by decide)
  · exact decodeTable_none (by decide) (by decide)
  · exact decodeTable_none (by decide) (by decide)

end Sys2Proof.Machine
end

section
/-!
SUPPORT. Facts the obligations on the step engine need: which flags an entry lists, a step that executes as its entry's load, and
what such a step leaves in the flags.
-/

namespace Sys2Proof.Machine

/-- R66: every entry of the table lists Z and N. -/
theorem flags_of_decodeTable {b : Byte} {e : TableEntry} (h : decodeTable b = some e) : e.flags = [.Z, .N] := by
  rcases decodeTable_cases b with ⟨-, hb⟩ | ⟨-, hb⟩ | ⟨-, -, hb⟩
  · obtain rfl : entryLda = e := Option.some.inj (hb.symm.trans h)
    rfl
  · obtain rfl : entryLdx = e := Option.some.inj (hb.symm.trans h)
    rfl
  · simp [hb] at h

/-- R67: a step that executes has an entry for its opcode byte, and is that entry's load. -/
theorem step_next_inv {s t : State} (h : step s = .next t) :
    ∃ e, decodeTable (s.readByte s.pc) = some e ∧
      loadImmediate e (s.readByte (s.pc + 1)) { s with pc := s.pc + 2 } = .next t := by
  rcases step_cases s with ⟨i, hd, -, -, -⟩ | ⟨-, -, hs⟩
  · exact ⟨i.entry, hd, (step_eq_loadImmediate hd).symm.trans h⟩
  · simp [hs] at h

/-- R74: after a step that executes, Z and N are the policy's values of the register it wrote. -/
theorem step_zeroOf_negativeOf {s t : State} {e : TableEntry} (hd : decodeTable (s.readByte s.pc) = some e)
    (h : step s = .next t) : t.Z = zeroOf (t.readReg e.dest) ∧ t.N = negativeOf (t.readReg e.dest) := by
  rw [step_eq_loadImmediate hd] at h
  obtain ⟨_, ⟨⟩, hdest, -, hZ, hN, -, -, -⟩ := loadImmediate_cases h
  rw [flags_of_decodeTable hd, if_pos (by decide)] at hZ hN
  exact ⟨hdest.symm ▸ hZ, hdest.symm ▸ hN⟩

/-- R75: a step that executes leaves each flag but Z and N. -/
theorem step_readFlag_other {s t : State} {f : Flag} (h : step s = .next t) (hz : f ≠ .Z) (hn : f ≠ .N) :
    t.readFlag f = s.readFlag f := by
  obtain ⟨e, -, hload⟩ := step_next_inv h
  obtain ⟨_, ⟨⟩, -, -, -, -, hother, -, -⟩ := loadImmediate_cases hload
  exact (hother f hz hn).trans (State.readFlag_withPc ..)

/-- R75's list of flags has neither Z nor N in it. -/
theorem ne_Z_and_ne_N_of_mem {f : Flag} (h : f ∈ [Flag.C, .V, .D, .I, .B]) : f ≠ .Z ∧ f ≠ .N :=
  ⟨fun hz => absurd (hz ▸ h) (by decide), fun hn => absurd (hn ▸ h) (by decide)⟩

/-- R72's condition as a proposition. -/
theorem zeroOf_eq_decide (v : Byte) : zeroOf v = decide (v = 0x00) := rfl

/-- R73's condition as a proposition, in the form with the mask. -/
theorem negativeOf_eq_true_iff (v : Byte) : negativeOf v = true ↔ v &&& 0b1000_0000 ≠ 0 := bne_iff_ne

end Sys2Proof.Machine
end

section
/-!
PROOFS. The obligations on the decode table and the Flag Update Policy (40_dispatch_engine.md).
-/

namespace Sys2Proof.Machine

/-- Settles O21: the step leaves the policy's Z and N of the register's value, and the policy's N is bit 7 and the mask's test. -/
theorem zeroAndNegativeDescribeTheLoadedValue : Obligations.ZeroAndNegativeDescribeTheLoadedValue := by
  intro s t e hd h
  obtain ⟨hZ, hN⟩ := step_zeroOf_negativeOf hd h
  refine ⟨hZ.trans (zeroOf_eq_decide _), hN.trans (negativeOf_eq_bit7 _), ?_⟩
  rw [hN]
  exact negativeOf_eq_true_iff _

/-- Settles O22: the policy touches no flag but Z and N, nor does the step, and none of the five is Z or N. -/
theorem otherFlagsAreNeverTouched : Obligations.OtherFlagsAreNeverTouched := by
  refine ⟨fun listed v s f hf => ?_, fun s t h => ?_⟩
  · obtain ⟨hz, hn⟩ := ne_Z_and_ne_N_of_mem hf
    exact readFlag_flagUpdatePolicy_other listed v s hz hn
  · have kept : ∀ f ∈ [Flag.C, .V, .D, .I, .B], t.readFlag f = s.readFlag f := by
      intro f hf
      obtain ⟨hz, hn⟩ := ne_Z_and_ne_N_of_mem hf
      exact step_readFlag_other h hz hn
    simpa [State.readFlag] using kept

/-- Settles O2: the lookup of each row's opcode, and of a byte that is neither. -/
theorem decodeTableHasTwoEntries : Obligations.DecodeTableHasTwoEntries :=
  ⟨decodeTable_lda, decodeTable_ldx, fun _ => decodeTable_none⟩

end Sys2Proof.Machine
end

section
/-!
SUPPORT. Facts the obligations on the load-immediate instructions need: decoding from a row of the table, pc's next address as
R85 and R86 write it, the whole result of each entry's load, and the step that executes as that load.
-/

namespace Sys2Proof

/-- R57: a listed opcode byte and one byte more decode to the entry's instruction, whatever follows. -/
theorem decode_of_decodeTable {opcode : Byte} {e : TableEntry} (h : decodeTable opcode = some e) (operand : Byte)
    (rest : List Byte) : decode (opcode :: operand :: rest) = .ok (assemble e operand, rest) := by
  simp only [decode, h]

end Sys2Proof

namespace Sys2Proof.Machine

/-- R85, R86: adding two to an address is adding two to its number modulo 0x10000. -/
theorem add_two_eq_ofNat (a : Addr) : a + 2 = BitVec.ofNat 16 ((a.toNat + 2) % 0x10000) := by
  apply BitVec.eq_of_toNat_eq
  simp [BitVec.toNat_add]

/-- R85: the load of 0x9A's entry writes acc, and Z and N from the value it writes. -/
theorem loadImmediate_entryLda (v : Byte) (s : State) :
    loadImmediate entryLda v s = .next { s with acc := v, Z := decide (v = 0x00), N := v.getLsbD 7 } := by
  rw [← zeroOf_eq_decide, ← negativeOf_eq_bit7]
  rfl

/-- R86: the load of 0xA2's entry writes x, and Z and N from the value it writes. -/
theorem loadImmediate_entryLdx (v : Byte) (s : State) :
    loadImmediate entryLdx v s = .next { s with x := v, Z := decide (v = 0x00), N := v.getLsbD 7 } := by
  rw [← zeroOf_eq_decide, ← negativeOf_eq_bit7]
  rfl

/-- R67, R68: where the opcode byte has an entry, the step and the host's call give what that entry's load gives, and the call
returns the entry's cycle cost. -/
theorem step_and_executeOneInstruction_of_load {s t : State} {e : TableEntry}
    (hd : decodeTable (s.readByte s.pc) = some e)
    (hload : loadImmediate e (s.readByte (s.pc + 1)) { s with pc := s.pc + 2 } = .next t) :
    step s = .next t ∧ executeOneInstruction s = (.ok e.cycles, t) := by
  have hstep : step s = .next t := (step_eq_loadImmediate hd).trans hload
  refine ⟨hstep, ?_⟩
  rcases executeOneInstruction_cases s with ⟨i, t', hi, -, -, hs, he⟩ | ⟨hnone, -, -⟩
  · obtain rfl : i.entry = e := Option.some.inj (hi.symm.trans hd)
    obtain rfl : t' = t := Host.Outcome.next.inj (hs.symm.trans hstep)
    exact he
  · simp [hnone] at hd

end Sys2Proof.Machine
end

section
/-!
PROOFS. The obligations on the load-immediate instructions (41_load_immediate.md).
-/

namespace Sys2Proof.Machine

/-- Settles O5: 0x9A is the opcode of LDA's row, so the bytes decode by that row and the step is the load of its entry. -/
theorem ldaStep : Obligations.LdaStep := by
  refine ⟨fun v => ⟨rfl, decode_of_decodeTable decodeTable_lda v []⟩, fun s hop => ⟨_, rfl, ?_⟩⟩
  have listed : decodeTable (s.readByte s.pc) = some entryLda := hop ▸ decodeTable_lda
  rw [← add_two_eq_ofNat]
  exact step_and_executeOneInstruction_of_load listed (loadImmediate_entryLda ..)

/-- Settles O6: 0xA2 is the opcode of LDX's row, so the bytes decode by that row and the step is the load of its entry. -/
theorem ldxStep : Obligations.LdxStep := by
  refine ⟨fun v => ⟨rfl, decode_of_decodeTable decodeTable_ldx v []⟩, fun s hop => ⟨_, rfl, ?_⟩⟩
  have listed : decodeTable (s.readByte s.pc) = some entryLdx := hop ▸ decodeTable_ldx
  rw [← add_two_eq_ofNat]
  exact step_and_executeOneInstruction_of_load listed (loadImmediate_entryLdx ..)

end Sys2Proof.Machine
end

section
/-!
SUPPORT. Facts the obligations on exceptions need: a write to a flag commutes with a write to a register, pc, memory or another
flag, and so with a load and a step that do not write that flag; and what load_program answers the host.
-/

namespace Sys2Proof.Machine

namespace State

variable (s : State) (r : Register) (f : Flag) (v : Byte) (b : Bool)

theorem writeReg_writeFlag : (s.writeFlag f b).writeReg r v = (s.writeReg r v).writeFlag f b := by
  cases r <;> cases f <;> rfl

theorem withPc_writeFlag (a : Addr) : { s.writeFlag f b with pc := a } = State.writeFlag { s with pc := a } f b := by
  cases f <;> rfl

theorem withMem_writeFlag (m : Memory) : { s.writeFlag f b with mem := m } = State.writeFlag { s with mem := m } f b := by
  cases f <;> rfl

/-- R18, R21: flags are separate bits, so writes to two of them commute. -/
theorem writeFlag_comm {f g : Flag} (h : f ≠ g) (b c : Bool) :
    (s.writeFlag f b).writeFlag g c = (s.writeFlag g c).writeFlag f b := by
  refine ext_of_reads (by simp) (fun k => ?_) (by simp) (by simp)
  by_cases hf : k = f
  · subst hf
    simp [h]
  · by_cases hg : k = g
    · subst hg
      simp [hf]
    · simp [hf, hg]

end State

/-- R75, R76: the policy neither reads nor writes a flag that is not listed. -/
theorem flagUpdatePolicy_writeFlag_unlisted {listed : List Flag} {f : Flag} (hf : f ∉ listed) (v : Byte) (s : State)
    (b : Bool) : flagUpdatePolicy listed v (s.writeFlag f b) = (flagUpdatePolicy listed v s).writeFlag f b := by
  have refresh (g : Flag) (c : Bool) (s : State) :
      (if g ∈ listed then (s.writeFlag f b).writeFlag g c else s.writeFlag f b) =
        (if g ∈ listed then s.writeFlag g c else s).writeFlag f b := by
    by_cases hg : g ∈ listed
    · rw [if_pos hg, if_pos hg, State.writeFlag_comm s (ne_of_mem_of_not_mem hg hf).symm]
    · rw [if_neg hg, if_neg hg]
  simp only [flagUpdatePolicy, refresh]

/-- A load neither reads nor writes a flag that its entry does not list. -/
theorem loadImmediate_writeFlag_unlisted {e : TableEntry} {v : Byte} {s t : State} {f : Flag}
    (h : loadImmediate e v s = .next t) (hf : f ∉ e.flags) (b : Bool) :
    loadImmediate e v (s.writeFlag f b) = .next (t.writeFlag f b) := by
  cases h
  rw [loadImmediate, State.writeReg_writeFlag, flagUpdatePolicy_writeFlag_unlisted hf]

/-- R67, R75: a step, executed or failed, neither reads nor writes a flag other than Z and N. -/
theorem executeOneInstruction_writeFlag {f : Flag} (hZ : f ≠ .Z) (hN : f ≠ .N) (s : State) (b : Bool) :
    executeOneInstruction (s.writeFlag f b) = ((executeOneInstruction s).1, (executeOneInstruction s).2.writeFlag f b) := by
  rcases executeOneInstruction_cases s with ⟨i, t, hd, -, -, hs, he⟩ | ⟨hd, -, he⟩
  · have unlisted : f ∉ i.entry.flags := by simp [flags_of_decodeTable hd, hZ, hN]
    have load := loadImmediate_writeFlag_unlisted ((step_eq_loadImmediate hd).symm.trans hs) unlisted b
    rw [← State.withPc_writeFlag] at load
    rw [he]
    exact (step_and_executeOneInstruction_of_load (by simpa using hd) (by simpa using load)).2
  · rw [he, (step_unlisted (s := s.writeFlag f b) (by simpa using hd)).2, s.pc_writeFlag, s.readByte_writeFlag]

/-- R113: what the host gets of an accepted load. -/
theorem serve_loadProgram_accepted {p : List Byte} (h : p.length ≤ Config.memorySize) (s : State) :
    serve (.loadProgram p) s = (.loaded, { s with mem := s.mem.copyIn Config.loadAddress p }) := by
  simp only [serve, loadProgram_accepted h]

/-- R114: what the host gets of a rejected load. -/
theorem serve_loadProgram_rejected {p : List Byte} (h : Config.memorySize < p.length) (s : State) :
    serve (.loadProgram p) s = (.loadError (.programTooLarge p.length Config.memorySize), s) := by
  simp only [serve, loadProgram_rejected h]

/-- R115: a load, accepted or rejected, neither reads nor writes a flag. -/
theorem serve_loadProgram_writeFlag (p : List Byte) (s : State) (f : Flag) (b : Bool) :
    serve (.loadProgram p) (s.writeFlag f b) =
      ((serve (.loadProgram p) s).1, (serve (.loadProgram p) s).2.writeFlag f b) := by
  rcases Nat.lt_or_ge Config.memorySize p.length with tooLong | fits
  · simp only [serve_loadProgram_rejected tooLong]
  · simp only [serve_loadProgram_accepted fits, State.mem_writeFlag, State.withMem_writeFlag]

end Sys2Proof.Machine
end

section
/-!
PROOFS. The obligations on exceptions (60_exceptions.md).
-/

namespace Sys2Proof.Machine

/-- Settles O24: I is neither Z nor N, so a write to it commutes with the step, and with the load as every flag's does. -/
theorem interruptMaskHasNoEffect : Obligations.InterruptMaskHasNoEffect := fun s b =>
  ⟨executeOneInstruction_writeFlag (by decide) (by decide) s b, fun p => serve_loadProgram_writeFlag p s .I b⟩

/-- Settles O29: memory's length is 0x10000, so the load is a rejected one. -/
theorem oversizeLoadWritesNothing : Obligations.OversizeLoadWritesNothing := fun _ s h =>
  ⟨loadProgram_rejected h s, serve_loadProgram_rejected h s⟩

end Sys2Proof.Machine
end

section
/-!
SUPPORT. Facts the obligations on reset and hazards need: the bytes an accepted load leaves, and that a second copy or load of
the same program changes nothing.
-/

namespace Sys2Proof.Machine

/-- R112: an accepted load gives a state that holds byte i of the program at address i. -/
theorem loadProgram_copies {p : List Byte} (fits : p.length ≤ Config.memorySize) (s : State) :
    ∃ t, loadProgram p s = .next t ∧ ∀ (i : Nat) (h : i < p.length), t.readByte (BitVec.ofNat 16 i) = p[i] := by
  refine ⟨_, loadProgram_accepted fits s, fun i h => ?_⟩
  have address : (BitVec.ofNat 16 i).toNat = i := Nat.mod_eq_of_lt (h.trans_le fits)
  rw [readByte_afterLoad, address, List.getD_eq_getElem p _ h]

/-- A second copy of the same bytes finds them there: memories in canonical form that read alike are equal. -/
theorem Memory.copyIn_copyIn_same {m : Memory} (hm : m.wf) {a : Nat} {p : List Byte}
    (fits : a + p.length ≤ Config.memorySize) : (m.copyIn a p).copyIn a p = m.copyIn a p := by
  have once : (m.copyIn a p).wf := wf_copyIn hm fits
  refine eq_of_reads (wf_copyIn once fits) once fun b _ => ?_
  simp only [read_copyIn]
  split
  · rcases Nat.lt_or_ge (b - a) p.length with inside | past
    · simp only [List.getD_eq_getElem p _ inside]
    · simp only [List.getD_eq_default p _ past]
  · rfl

/-- R118: a second load of the same program changes nothing, whether the two are accepted or rejected. -/
theorem serve_loadProgram_twice (p : List Byte) {s : State} (hs : s.mem.wf) :
    (serve (.loadProgram p) (serve (.loadProgram p) s).2).2 = (serve (.loadProgram p) s).2 := by
  rcases Nat.lt_or_ge Config.memorySize p.length with tooLong | fits
  · simp only [serve_loadProgram_rejected tooLong]
  · have fromLoadAddress : Config.loadAddress + p.length ≤ Config.memorySize := by
      simpa [Config.loadAddress] using fits
    simp only [serve_loadProgram_accepted fits, Memory.copyIn_copyIn_same hs fromLoadAddress]

/-- R121: host operations run in order, each from the state the one before it left. -/
theorem serveAll_cons_state (q : Request) (rest : List Request) (s : State) :
    (serveAll (q :: rest) s).2 = (serveAll rest (serve q s).2).2 := rfl

end Sys2Proof.Machine
end

section
/-!
PROOFS. The obligations on reset and hazards (70_reset_and_hazards.md).
-/

namespace Sys2Proof.Machine

/-- Settles O27: construction with a program is a load from the zeroed state, so one lemma on loads serves both. -/
theorem programIsCopiedFromAddressZero : Obligations.ProgramIsCopiedFromAddressZero := fun _ s fits =>
  ⟨loadProgram_copies fits s, loadProgram_copies fits State.reset⟩

/-- Settles O31: the second load changes nothing, so the step runs from the same state. -/
theorem loadingTwiceIsLoadingOnce : Obligations.LoadingTwiceIsLoadingOnce := by
  intro p s hs
  simp only [serveAll_cons_state, serve_loadProgram_twice p hs]

end Sys2Proof.Machine
end

section
/-!
SUPPORT. Facts the obligations on decode and encode need: an instruction's encoding by its entry, and what the decoder answers as
an equivalence.
-/

namespace Sys2Proof

/-- R53: a byte with an entry is the opcode of one of the two rows, and the entry is that row's. -/
theorem decodeTable_some_inv {b : Byte} {e : TableEntry} (h : decodeTable b = some e) :
    (b = opcodeLda ∧ e = entryLda) ∨ (b = opcodeLdx ∧ e = entryLdx) := by
  rcases decodeTable_cases b with ⟨hop, hb⟩ | ⟨hop, hb⟩ | ⟨-, -, hb⟩
  · exact .inl ⟨hop, Option.some.inj (h.symm.trans hb)⟩
  · exact .inr ⟨hop, Option.some.inj (h.symm.trans hb)⟩
  · simp [hb] at h

/-- R51: the encoding of a row's instruction is the row's opcode byte and the operand. -/
theorem encode_assemble {opcode : Byte} {e : TableEntry} (h : decodeTable opcode = some e) (operand : Byte) :
    encode (assemble e operand) = [opcode, operand] := by
  rcases decodeTable_some_inv h with ⟨rfl, rfl⟩ | ⟨rfl, rfl⟩
  · rfl
  · rfl

/-- R51, R53: every instruction is its entry's row with its own operand. -/
theorem encode_eq_opcode_operand (i : Instr) :
    ∃ opcode, encode i = [opcode, i.operand] ∧ decodeTable opcode = some i.entry := by
  cases i with
  | lda v => exact ⟨opcodeLda, rfl, decodeTable_lda⟩
  | ldx v => exact ⟨opcodeLdx, rfl, decodeTable_ldx⟩

/-- R57: what the decoder reads as an instruction is a listed opcode byte, one operand byte, and the bytes it leaves. -/
theorem decode_eq_ok_iff {bytes rest : List Byte} {i : Instr} :
    decode bytes = .ok (i, rest) ↔
      ∃ opcode operand e, bytes = opcode :: operand :: rest ∧ decodeTable opcode = some e ∧ assemble e operand = i := by
  constructor
  · intro h
    match bytes with
    | [] => simp [decode] at h
    | [opcode] => cases hd : decodeTable opcode <;> simp [decode, hd] at h
    | opcode :: operand :: rest' =>
      cases hd : decodeTable opcode with
      | none => simp [decode, hd] at h
      | some e =>
        rw [decode_of_decodeTable hd] at h
        cases h
        exact ⟨opcode, operand, e, rfl, hd, rfl⟩
  · rintro ⟨opcode, operand, e, rfl, hd, rfl⟩
    exact decode_of_decodeTable hd operand rest

end Sys2Proof
end

section
/-!
PROOFS. The obligations on decode and encode (30_encoding.md).
-/

namespace Sys2Proof

/-- Settles O1: both sides say that the bytes are the opcode of a row, an operand and the rest, with that row's instruction. -/
theorem decodeInvertsEncode : Obligations.DecodeInvertsEncode := by
  refine fun i bytes rest _ => ⟨fun h => ?_, fun h => ?_⟩
  · obtain ⟨opcode, operand, e, rfl, hd, rfl⟩ := decode_eq_ok_iff.1 h
    rw [encode_assemble hd]
    rfl
  · obtain ⟨opcode, hencode, hd⟩ := encode_eq_opcode_operand i
    exact decode_eq_ok_iff.2 ⟨opcode, i.operand, i.entry, by rw [h, hencode]; rfl, hd, assemble_entry_operand i⟩

/-- Settles O3: the first four words begin with a row's opcode, the last two with a byte of no row. -/
theorem sampleWordsDecode : Obligations.SampleWordsDecode :=
  ⟨decode_of_decodeTable decodeTable_lda 0x42 [], decode_of_decodeTable decodeTable_lda 0x80 [],
    decode_of_decodeTable decodeTable_ldx 0xFF [], decode_of_decodeTable decodeTable_ldx 0x00 [], rfl, rfl⟩

end Sys2Proof
end

section
/-!
SUPPORT. Facts the obligations on the invariant need: all that a step that executes leaves, what no step writes, and everything a
host operation can do to the state.
-/

namespace Sys2Proof

/-- R53: an entry's register is acc or x, so neither y nor sp. -/
theorem ne_dest_of_decodeTable {b : Byte} {e : TableEntry} (h : decodeTable b = some e) {r : Register}
    (hr : r ∈ [Register.y, .sp]) : r ≠ e.dest := by
  rcases decodeTable_some_inv h with ⟨-, rfl⟩ | ⟨-, rfl⟩
  · exact ne_of_mem_of_not_mem hr (by decide)
  · exact ne_of_mem_of_not_mem hr (by decide)

/-- R68: every entry costs 2 cycles. -/
theorem cycles_of_decodeTable {b : Byte} {e : TableEntry} (h : decodeTable b = some e) : e.cycles = 2 := by
  rcases decodeTable_some_inv h with ⟨-, rfl⟩ | ⟨-, rfl⟩
  · rfl
  · rfl

end Sys2Proof

namespace Sys2Proof.Machine

/-- What R67 says of the state `t` after a step from `s` at an opcode byte with the entry `e`, component by component. -/
structure Executed (e : TableEntry) (s t : State) : Prop where
  readReg_dest   : t.readReg e.dest = s.readByte (s.pc + 1)
  readReg_other  : ∀ r, r ≠ e.dest → t.readReg r = s.readReg r
  readFlag_Z     : t.readFlag .Z = zeroOf (s.readByte (s.pc + 1))
  readFlag_N     : t.readFlag .N = negativeOf (s.readByte (s.pc + 1))
  readFlag_other : ∀ f, f ≠ .Z → f ≠ .N → t.readFlag f = s.readFlag f
  pc             : t.pc = s.pc + 2
  mem            : t.mem = s.mem

/-- R67, R68: at an opcode byte with an entry the step executes, and the host's call returns 2 cycles with the same state. -/
theorem step_listed {s : State} {e : TableEntry} (hd : decodeTable (s.readByte s.pc) = some e) :
    ∃ t, step s = .next t ∧ executeOneInstruction s = (.ok 2, t) ∧ Executed e s t := by
  obtain ⟨t, hload, hdest, hreg, hZ, hN, hflag, hpc, hmem⟩ :=
    loadImmediate_cases (e := e) (v := s.readByte (s.pc + 1)) (s := { s with pc := s.pc + 2 }) rfl
  obtain ⟨hstep, hexec⟩ := step_and_executeOneInstruction_of_load hd hload
  rw [cycles_of_decodeTable hd] at hexec
  rw [flags_of_decodeTable hd, if_pos (by decide)] at hZ hN
  exact ⟨t, hstep, hexec, hdest, fun r hr => (hreg r hr).trans (State.readReg_withPc ..), hZ, hN,
    fun f hz hn => (hflag f hz hn).trans (State.readFlag_withPc ..), hpc, hmem⟩

/-- R67: where a step gives a next state, its opcode byte has an entry, and the state is the one R67 says of that entry. -/
theorem executed_of_step {s t : State} (h : step s = .next t) :
    ∃ e, decodeTable (s.readByte s.pc) = some e ∧ Executed e s t := by
  obtain ⟨e, hd, -⟩ := step_next_inv h
  obtain ⟨t', hstep, -, executed⟩ := step_listed hd
  obtain rfl : t' = t := Host.Outcome.next.inj (hstep.symm.trans h)
  exact ⟨e, hd, executed⟩

/-- R16: a step that executes moves pc on by two. -/
theorem step_pc {s t : State} (h : step s = .next t) : t.pc = s.pc + 2 := by
  obtain ⟨_, -, executed⟩ := executed_of_step h
  exact executed.pc

/-- R10's table of writers: no step writes y or sp. -/
theorem step_readReg_unwritten {s t : State} {r : Register} (h : step s = .next t) (hr : r ∈ [Register.y, .sp]) :
    t.readReg r = s.readReg r := by
  obtain ⟨e, hd, executed⟩ := executed_of_step h
  exact executed.readReg_other r (ne_dest_of_decodeTable hd hr)

/-- R20's table of writers: no step writes C, I, D, B or V. -/
theorem step_readFlag_unwritten {s t : State} {f : Flag} (h : step s = .next t) (hf : f ∈ [Flag.C, .I, .D, .B, .V]) :
    t.readFlag f = s.readFlag f :=
  step_readFlag_other h (ne_of_mem_of_not_mem hf (by decide)) (ne_of_mem_of_not_mem hf (by decide))

/-- Everything a host operation can do to the state: leave it, copy an accepted program into memory, or step. -/
theorem serve_state_cases (q : Request) (s : State) :
    (serve q s).2 = s ∨
      (∃ p, q = .loadProgram p ∧ (serve q s).2 = { s with mem := s.mem.copyIn Config.loadAddress p }) ∨
      (q = .executeOneInstruction ∧ step s = .next (serve q s).2) := by
  cases q with
  | loadProgram p =>
    rcases Nat.lt_or_ge Config.memorySize p.length with tooLong | fits
    · exact .inl (by rw [serve_loadProgram_rejected tooLong])
    · exact .inr (.inl ⟨p, rfl, by rw [serve_loadProgram_accepted fits]⟩)
  | executeOneInstruction =>
    rcases executeOneInstruction_cases s with ⟨_, t, -, -, -, hs, he⟩ | ⟨-, -, he⟩
    · exact .inr (.inr ⟨rfl, by simp only [serve, he, hs]⟩)
    · exact .inl (by simp only [serve, he])
  | readRegister | readPc | readFlag | readMemory => exact .inl rfl

/-- R121: what every host operation keeps, every sequence of them keeps. -/
theorem serveAll_keeps {P : State → Prop} (keeps : ∀ q s, P s → P (serve q s).2) (requests : List Request) {s : State}
    (h : P s) : P (serveAll requests s).2 := by
  induction requests generalizing s with
  | nil => exact h
  | cons q rest ih =>
    rw [serveAll_cons_state]
    exact ih (keeps q s h)

/-- Two more keeps an address even: 0x10000 is even, so the wrap does too. -/
theorem even_add_two {a : Addr} (h : a.toNat % 2 = 0) : (a + 2).toNat % 2 = 0 := by
  rw [BitVec.toNat_add, show (2 : Addr).toNat = 2 from rfl]
  omega

end Sys2Proof.Machine

namespace Sys2Proof.Safety

open Sys2Proof.Machine

/-- R26: a step that executes keeps the invariant. -/
theorem inv_of_step {s t : State} (hs : Inv s) (h : step s = .next t) : Inv t where
  mem_wf := step_mem h ▸ hs.mem_wf
  y_zero := (step_readReg_unwritten (r := .y) h (by decide)).trans hs.y_zero
  sp_zero := (step_readReg_unwritten (r := .sp) h (by decide)).trans hs.sp_zero
  unused := by
    obtain ⟨hC, hI, hD, hB, hV⟩ := hs.unused
    exact ⟨(step_readFlag_unwritten (f := .C) h (by decide)).trans hC,
      (step_readFlag_unwritten (f := .I) h (by decide)).trans hI,
      (step_readFlag_unwritten (f := .D) h (by decide)).trans hD,
      (step_readFlag_unwritten (f := .B) h (by decide)).trans hB,
      (step_readFlag_unwritten (f := .V) h (by decide)).trans hV⟩
  pc_even := step_pc h ▸ even_add_two hs.pc_even
  not_both := by
    obtain ⟨e, hd, -⟩ := step_next_inv h
    obtain ⟨hZ, hN⟩ := step_zeroOf_negativeOf hd h
    rw [hZ, hN]
    exact not_zero_and_negative _

/-- A memory in canonical form may take the place of another: the rest of the invariant is of other components. -/
theorem inv_withMem {s : State} (hs : Inv s) {m : Memory} (hm : m.wf) : Inv { s with mem := m } where
  mem_wf := hm
  y_zero := hs.y_zero
  sp_zero := hs.sp_zero
  unused := hs.unused
  pc_even := hs.pc_even
  not_both := hs.not_both

/-- R26: every host operation keeps the invariant. -/
theorem inv_of_serve (q : Request) {s : State} (hs : Inv s) : Inv (serve q s).2 := by
  have hm : (serve q s).2.mem.wf := serve_mem_wf q hs.mem_wf
  rcases serve_state_cases q s with same | ⟨p, -, loaded⟩ | ⟨-, stepped⟩
  · rwa [same]
  · rw [loaded] at hm ⊢
    exact inv_withMem hs hm
  · exact inv_of_step hs stepped

/-- R26: the zeroed state meets the invariant. -/
theorem inv_reset : Inv State.reset where
  mem_wf := State.reset_mem_wf
  y_zero := rfl
  sp_zero := rfl
  unused := ⟨rfl, rfl, rfl, rfl, rfl⟩
  pc_even := rfl
  not_both := by decide

/-- R26's consequence for the fetch: pc is even, so never at the top of memory. -/
theorem Inv.pc_ne_top {s : State} (hs : Inv s) : s.pc ≠ 0xFFFF := fun h =>
  absurd (h ▸ hs.pc_even) (by decide)

end Sys2Proof.Safety
end

section
/-!
PROOFS. The obligations on the invariant of reachable states (10_state.md section 8) and on who writes what.
-/

namespace Sys2Proof.Safety

open Sys2Proof.Machine

/-- Settles O36. -/
theorem resetMeetsTheInvariant : Obligations.ResetMeetsTheInvariant := inv_reset

/-- Settles O37: a step writes nothing the invariant holds at zero, moves pc by two, and takes Z and N from one byte. -/
theorem everyStepKeepsTheInvariant : Obligations.EveryStepKeepsTheInvariant := fun _ _ => inv_of_step

/-- Settles O38: a host operation leaves the state, replaces memory by one in canonical form, or steps. -/
theorem everyRequestKeepsTheInvariant : Obligations.EveryRequestKeepsTheInvariant := fun q _ => inv_of_serve q

/-- Settles O39: the invariant holds at reset and every host operation keeps it; with pc even, pc + 1 does not wrap. -/
theorem reachableStatesMeetTheInvariant : Obligations.ReachableStatesMeetTheInvariant := by
  rintro s ⟨requests, rfl⟩
  have inv := serveAll_keeps (fun q _ => inv_of_serve q) requests inv_reset
  refine ⟨inv, inv.pc_ne_top, fun wraps => inv.pc_ne_top ?_⟩
  exact add_right_cancel (b := (1 : Addr)) (wraps.trans (by decide))

end Sys2Proof.Safety

namespace Sys2Proof.Machine

/-- Settles O26: a host operation leaves the state, replaces memory alone, or steps; and a step writes none of the seven. -/
theorem whoWritesWhat : Obligations.WhoWritesWhat := by
  intro q s
  rcases serve_state_cases q s with same | ⟨p, -, loaded⟩ | ⟨hq, stepped⟩
  · rw [same]
    exact ⟨fun _ _ => rfl, fun _ _ => rfl, fun _ => ⟨fun _ => rfl, fun _ => rfl, rfl⟩⟩
  · rw [loaded]
    exact ⟨fun r _ => s.readReg_withMem r _, fun f _ => s.readFlag_withMem f _,
      fun _ => ⟨fun r => s.readReg_withMem r _, fun f => s.readFlag_withMem f _, rfl⟩⟩
  · exact ⟨fun _ => step_readReg_unwritten stepped, fun _ => step_readFlag_unwritten stepped, fun h => absurd hq h⟩

end Sys2Proof.Machine
end

section
/-!
SUPPORT. Facts the remaining obligations on the step need: an instruction's outcome and frame, the step of decoded bytes, the
step that fails, and the host's call as the step.
-/

namespace Sys2Proof.Machine

/-- R36: what a byte reads as depends on memory alone. -/
theorem readByte_of_mem_eq {s t : State} (h : t.mem = s.mem) (a : Addr) : t.readByte a = s.readByte a := by
  rw [State.readByte, State.readByte, h]

/-- R85, R86: an instruction always completes. -/
theorem exec_completes (i : Instr) (s : State) : ∃ t, exec i s = .next t :=
  ⟨_, exec_eq_loadImmediate i s⟩

/-- Log 13: an instruction leaves pc. -/
theorem exec_pc {i : Instr} {s t : State} (h : exec i s = .next t) : t.pc = s.pc := by
  rw [exec_eq_loadImmediate] at h
  obtain ⟨_, ⟨⟩, -, -, -, -, -, hpc, -⟩ := loadImmediate_cases h
  exact hpc

/-- R75: an instruction leaves each flag but Z and N. -/
theorem exec_readFlag_other {i : Instr} {s t : State} {f : Flag} (h : exec i s = .next t) (hz : f ≠ .Z) (hn : f ≠ .N) :
    t.readFlag f = s.readFlag f := by
  rw [exec_eq_loadImmediate] at h
  obtain ⟨_, ⟨⟩, -, -, -, -, hother, -, -⟩ := loadImmediate_cases h
  exact hother f hz hn

/-- R67: where the two bytes from pc on decode to an instruction, the step is `exec` of it with pc two bytes on. -/
theorem step_of_decode {s : State} {i : Instr}
    (h : decode [s.readByte s.pc, s.readByte (s.pc + 1)] = .ok (i, [])) : step s = exec i { s with pc := s.pc + 2 } := by
  obtain ⟨opcode, operand, e, hbytes, hd, rfl⟩ := decode_eq_ok_iff.1 h
  cases hbytes
  simp only [step, fetchInstr_ok hd]

/-- R90: a step that fails met an opcode byte with no entry, and its error is that byte's. -/
theorem step_fault_inv {s : State} {e : Fault} (h : step s = .fault e) :
    decodeTable (s.readByte s.pc) = none ∧ e = .unrecognizedOpcode (s.readByte s.pc) := by
  cases hd : decodeTable (s.readByte s.pc) with
  | none => exact ⟨rfl, Host.Outcome.fault.inj (h.symm.trans (step_unlisted hd).1)⟩
  | some e' =>
    obtain ⟨t, hs, -⟩ := step_listed hd
    simp [hs] at h

/-- R65: the step and the host's call are one: both complete with the same state and 2 cycles, or both answer the same error. -/
theorem step_and_executeOneInstruction_cases (s : State) :
    (∃ t, step s = .next t ∧ executeOneInstruction s = (.ok 2, t)) ∨
      ∃ e, step s = .fault e ∧ executeOneInstruction s = (.err e, s) := by
  cases hd : decodeTable (s.readByte s.pc) with
  | none => exact .inr ⟨_, step_unlisted hd⟩
  | some e =>
    obtain ⟨t, hs, he, -⟩ := step_listed hd
    exact .inl ⟨t, hs, he⟩

/-- R69: a step that fails answers its error to the host and leaves the state. -/
theorem executeOneInstruction_of_fault {s : State} {e : Fault} (h : step s = .fault e) :
    executeOneInstruction s = (.err e, s) := by
  rcases step_and_executeOneInstruction_cases s with ⟨t, hs, -⟩ | ⟨e', hs, he⟩
  · simp [hs] at h
  · rwa [← Host.Outcome.fault.inj (hs.symm.trans h)]

/-- What steps that execute leave agrees where the bytes they fetch do, whatever else the two states hold. -/
theorem Executed.agree {e : TableEntry} {s s' t t' : State} (h : Executed e s t) (h' : Executed e s' t')
    (hflags : e.flags = [.Z, .N]) (hoperand : s.readByte (s.pc + 1) = s'.readByte (s'.pc + 1)) :
    t.readReg e.dest = t'.readReg e.dest ∧ ∀ f, f ∈ e.flags → t.readFlag f = t'.readFlag f := by
  refine ⟨by rw [h.readReg_dest, h'.readReg_dest, hoperand], fun f hf => ?_⟩
  obtain rfl | rfl : f = .Z ∨ f = .N := by simpa [hflags] using hf
  · rw [h.readFlag_Z, h'.readFlag_Z, hoperand]
  · rw [h.readFlag_N, h'.readFlag_N, hoperand]

end Sys2Proof.Machine
end

section
/-!
PROOFS. The remaining obligations on exec and the step (40_dispatch_engine.md, 41_load_immediate.md, 60_exceptions.md).
-/

namespace Sys2Proof.Machine

open Sys2Proof.Safety

/-- Settles O4. -/
theorem stepRunsTheDecodedInstruction : Obligations.StepRunsTheDecodedInstruction := fun _ _ _ => step_of_decode

/-- Settles O7: each instruction is the load of its row's entry. -/
theorem execCompletesWithItsResult : Obligations.ExecCompletesWithItsResult := fun v s =>
  ⟨(exec_eq_loadImmediate (.lda v) s).trans (loadImmediate_entryLda v s),
    (exec_eq_loadImmediate (.ldx v) s).trans (loadImmediate_entryLdx v s)⟩

/-- Settles O8: an instruction leaves memory, pc, each flag but Z and N, and each register but its entry's. -/
theorem loadImmediateFrame : Obligations.LoadImmediateFrame := by
  refine fun i s t h => ⟨fun a => readByte_of_mem_eq (exec_mem h) a, exec_pc h, fun _ => exec_readFlag_other h, ?_, ?_⟩
  · rintro v rfl r hr
    exact exec_readReg_other h hr
  · rintro v rfl r hr
    exact exec_readReg_other h hr

/-- Settles O10. -/
theorem failedStepLeavesTheState : Obligations.FailedStepLeavesTheState := fun _ _ => executeOneInstruction_err_state

/-- Settles O11: a step whose byte has no entry raises that byte's error, and a byte with no entry is neither opcode; a load
is an accepted or a rejected one. -/
theorem onlyErrorsOfTheirOwnOperation : Obligations.OnlyErrorsOfTheirOwnOperation := by
  refine ⟨fun s => ?_, fun s b h => ?_, fun p s => ?_⟩
  · cases hd : decodeTable (s.readByte s.pc) with
    | none => exact .inr (step_unlisted hd).1
    | some e =>
      obtain ⟨t, hs, -⟩ := step_listed hd
      exact .inl ⟨t, hs⟩
  · obtain ⟨hd, hb⟩ := step_fault_inv h
    cases hb
    exact ⟨rfl, decodeTable_eq_none_iff.1 hd⟩
  · rcases Nat.lt_or_ge Config.memorySize p.length with tooLong | fits
    · exact .inr (loadProgram_rejected tooLong s)
    · exact .inl ⟨_, loadProgram_accepted fits s⟩

/-- Settles O12: either both complete with one state and 2 cycles, or both answer one error. -/
theorem executeOneInstructionIsTheStep : Obligations.ExecuteOneInstructionIsTheStep := by
  intro s
  rcases step_and_executeOneInstruction_cases s with ⟨t, hs, he⟩ | ⟨e, hs, he⟩
  · simp [hs, he, eq_comm]
  · simp [hs, he]

/-- Settles O13: the failed step leaves the state, so by induction on the number of steps each further one fails alike. -/
theorem unrecognizedOpcodeIsAFixedPoint : Obligations.UnrecognizedOpcodeIsAFixedPoint := by
  intro s b k stopped
  induction k with
  | zero => rfl
  | succ k ih => simp [drive, executeOneInstruction_of_fault stopped, ih, List.replicate_succ]

/-- Settles O14. -/
theorem pcAdvancesByTwo : Obligations.PcAdvancesByTwo := by
  refine fun s => ⟨fun t h => ?_, fun e h => ?_⟩
  · rw [step_pc h, BitVec.toNat_add]
    rfl
  · rw [executeOneInstruction_err_state h]

/-- Settles O15: the operand is the byte at pc + 1 and pc moves on by two, both modulo 0x10000. -/
theorem operandWrapsAtTheTop : Obligations.OperandWrapsAtTheTop := by
  intro s e hd
  obtain ⟨t, hs, -, executed⟩ := step_listed hd
  refine ⟨fun hpc => ⟨t, hs, ?_, ?_⟩, fun hpc => ⟨t, hs, ?_, ?_⟩⟩
  · rw [executed.readReg_dest, hpc, show (0xFFFF : Addr) + 1 = 0x0000 from rfl]
  · rw [executed.pc, hpc, show (0xFFFF : Addr) + 2 = 0x0001 from rfl]
  · rw [executed.readReg_dest, hpc, show (0xFFFE : Addr) + 1 = 0xFFFF from rfl]
  · rw [executed.pc, hpc, show (0xFFFE : Addr) + 2 = 0x0000 from rfl]

/-- Settles O25: both states fetch the same bytes, so both steps execute with one entry and operand, or both fail. -/
theorem stepReadsOnlyPcAndMemory : Obligations.StepReadsOnlyPcAndMemory := by
  intro s s' hpc hmem
  have hop : s.readByte s.pc = s'.readByte s'.pc := by rw [hpc, readByte_of_mem_eq hmem]
  have hoperand : s.readByte (s.pc + 1) = s'.readByte (s'.pc + 1) := by rw [hpc, readByte_of_mem_eq hmem]
  cases hd : decodeTable (s.readByte s.pc) with
  | none =>
    rw [(step_unlisted hd).2, (step_unlisted (hop ▸ hd)).2, hop]
    exact ⟨rfl, hpc, hmem, fun _ h => nomatch h⟩
  | some e =>
    obtain ⟨t, -, he, executed⟩ := step_listed hd
    obtain ⟨t', -, he', executed'⟩ := step_listed (s := s') (hop ▸ hd)
    rw [he, he']
    refine ⟨rfl, by rw [executed.pc, executed'.pc, hpc], by rw [executed.mem, executed'.mem, hmem], ?_⟩
    rintro _ ⟨⟩
    exact executed.agree executed' (flags_of_decodeTable hd) hoperand

end Sys2Proof.Machine
end

section
/-!
SUPPORT. Facts the remaining obligations on loads need: a byte after a load as their statements write it, and what a placed word
that decodes says of its bytes.
-/

namespace Sys2Proof.Machine

/-- R113: after an accepted load a byte is the program's where the program covers its address, and else what it was. -/
theorem readByte_afterLoad_eq_dite (p : List Byte) (s : State) (a : Addr) :
    State.readByte { s with mem := s.mem.copyIn Config.loadAddress p } a =
      if h : a.toNat < p.length then p[a.toNat] else s.readByte a := by
  rw [readByte_afterLoad]
  split
  next inside => exact List.getD_eq_getElem p _ inside
  next past => exact List.getD_eq_default p _ (Nat.le_of_not_lt past)

/-- Log 6: a word from which an instruction is read is that instruction's two bytes, and no more. -/
theorem decode_of_decodeTableWord {nbits w : Nat} {i : Instr} (h : decodeTableWord nbits w = some i) :
    decode (wordBytes nbits w) = .ok (i, []) := by
  unfold decodeTableWord at h
  split at h
  next j rest hdecode =>
    cases h
    obtain ⟨opcode, operand, e, hbytes, hd, rfl⟩ := decode_eq_ok_iff.1 hdecode
    cases hbytes
    exact hdecode
  next => exact nomatch h

end Sys2Proof.Machine
end

section
/-!
PROOFS. The remaining obligations on loading, construction and the accessors (70_reset_and_hazards.md, 20_memory.md, 10_state.md).
-/

namespace Sys2Proof.Machine

/-- Settles O28: the accepted load's state is the old one with the program copied in. -/
theorem acceptedLoadWritesOnlyTheProgram : Obligations.AcceptedLoadWritesOnlyTheProgram := by
  intro p s t h
  obtain ⟨-, rfl⟩ := loadProgram_next_inv h
  refine ⟨fun r => s.readReg_withMem r _, fun f => s.readFlag_withMem f _, rfl, fun a past => ?_⟩
  rw [readByte_afterLoad, List.getD_eq_default p _ past]

/-- Settles O30: with a program, construction is by definition a load into the zeroed state, accepted exactly where it fits. -/
theorem constructWithProgram : Obligations.ConstructWithProgram := by
  refine fun p => ⟨rfl, ⟨fun ⟨t, h⟩ => ?_, fun fits => ?_⟩, fun tooLong => loadProgram_rejected tooLong State.reset⟩
  · exact (loadProgram_next_inv (s := State.reset) h).1
  · exact ⟨_, loadProgram_accepted fits State.reset⟩

/-- Settles O32: the two given bytes are those the loaded state holds at pc and after it, so its step is theirs. -/
theorem stepSeesTheLoadedBytes : Obligations.StepSeesTheLoadedBytes := by
  intro p s t opcode operand h hopcode hoperand
  obtain ⟨-, rfl⟩ := loadProgram_next_inv h
  have next : (s.pc + 1).toNat = (s.pc.toNat + 1) % 0x10000 := by rw [BitVec.toNat_add]; rfl
  rw [← readByte_afterLoad_eq_dite] at hopcode
  simp only [← next] at hoperand
  rw [← readByte_afterLoad_eq_dite] at hoperand
  subst hopcode hoperand
  exact ⟨fun i hdecode => step_of_decode hdecode, fun unlisted => (step_unlisted unlisted).1⟩

/-- Settles O35: the placed word's bytes are the ones the step fetches, and an instruction always completes. -/
theorem placedWordRunsNext : Obligations.PlacedWordRunsNext := by
  intro s nbits w i h
  obtain ⟨hpc, hopcode, hoperand⟩ := withFetchWord_bytes s nbits w
  have runs : step (s.withFetchWord nbits w) = exec i { s.withFetchWord nbits w with pc := s.pc + 2 } := by
    rw [← hpc]
    refine step_of_decode ?_
    rw [hpc, hopcode, hoperand]
    exact decode_of_decodeTableWord h
  rw [runs]
  exact ⟨rfl, exec_completes i _⟩

/-- Settles O33: the zeroed byte is no opcode. -/
theorem stepAtResetRaises : Obligations.StepAtResetRaises :=
  step_unlisted (s := State.reset) (decodeTable_none (by decide) (by decide))

/-- Settles O34: an accessor's operation is by definition its read, with the state given back. -/
theorem accessorsOnlyRead : Obligations.AccessorsOnlyRead := fun _ => ⟨fun _ => rfl, rfl, fun _ => rfl, fun _ => rfl⟩

end Sys2Proof.Machine
end

section
/-!
SUPPORT. Facts the refinement obligations need: the record of a state that is loaded or stepped, and what R67's pseudocode does at
a listed and at an unlisted opcode byte.
-/

namespace Sys2Proof.Safety

open Sys2Proof.Machine

/-- The record's opcode byte is the state's. -/
theorem recordOf_opcode (s : State) : (recordOf s).M (recordOf s).pc = s.readByte s.pc := rfl

/-- The record's operand is the state's: both add one to pc modulo 0x10000. -/
theorem recordOf_operand (s : State) : (recordOf s).M ((recordOf s).pc + 1) = s.readByte (s.pc + 1) := rfl

/-- The zeroed state stands for the zeroed record. -/
theorem recordOf_reset : recordOf State.reset = Record.zeroed := by
  simp only [recordOf, Record.zeroed, Record.mk.injEq]
  exact ⟨funext State.readReg_reset, funext State.readFlag_reset, rfl, funext fun a => State.readByte_reset _⟩

/-- R113: a copied-in program is, in the record, the program's bytes over the buffer's. -/
theorem recordOf_copyIn (p : List Byte) (s : State) :
    recordOf { s with mem := s.mem.copyIn Config.loadAddress p } =
      { recordOf s with M := fun a => p.getD a.val ((recordOf s).M a) } := by
  simp only [recordOf, Record.mk.injEq]
  exact ⟨funext fun r => s.readReg_withMem r _, funext fun f => s.readFlag_withMem f _, trivial,
    funext fun a => readByte_afterLoad p s (BitVec.ofFin a)⟩

/-- R67: what a step that executes leaves is, in the record, the pseudocode's writes of pc, one register, Z and N. -/
theorem recordOf_of_executed {e : TableEntry} {s t : State} (h : Executed e s t) :
    recordOf t =
      { recordOf s with
        pc := (recordOf s).pc + 1 + 1
        R := Function.update (recordOf s).R e.dest (s.readByte (s.pc + 1))
        F := Function.update (Function.update (recordOf s).F .Z (decide (s.readByte (s.pc + 1) = 0x00))) .N
          ((s.readByte (s.pc + 1)).getLsbD 7) } := by
  simp only [recordOf, Record.mk.injEq]
  refine ⟨funext fun r => ?_, funext fun f => ?_, ?_, funext fun a => readByte_of_mem_eq h.mem _⟩
  · by_cases hr : r = e.dest
    · rw [hr, h.readReg_dest, Function.update_self]
    · rw [h.readReg_other r hr, Function.update_of_ne hr]
  · by_cases hN : f = .N
    · rw [hN, h.readFlag_N, negativeOf_eq_bit7, Function.update_self]
    · rw [Function.update_of_ne hN]
      by_cases hZ : f = .Z
      · rw [hZ, h.readFlag_Z, zeroOf_eq_decide, Function.update_self]
      · rw [h.readFlag_other f hZ hN, Function.update_of_ne hZ]
  · rw [h.pc, ← add_one_add_one]
    rfl

/-- R67's pseudocode where the opcode byte has an entry: 2 cycles, and the writes with the entry's register. -/
theorem Record.step_listed {t : Record} {e : TableEntry} (hd : decodeTable (t.M t.pc) = some e) :
    t.step =
      (.ok 2,
        { t with
          pc := t.pc + 1 + 1
          R := Function.update t.R e.dest (t.M (t.pc + 1))
          F := Function.update (Function.update t.F .Z (decide (t.M (t.pc + 1) = 0x00))) .N
            ((t.M (t.pc + 1)).getLsbD 7) }) := by
  rcases decodeTable_some_inv hd with ⟨hop, rfl⟩ | ⟨hop, rfl⟩
  · simp [Record.step, hop, opcodeLda, entryLda]
  · simp [Record.step, hop, opcodeLdx, entryLdx]

/-- R67's pseudocode where the opcode byte has no entry: the error, and the record as it was. -/
theorem Record.step_unlisted {t : Record} (hd : decodeTable (t.M t.pc) = none) :
    t.step = (.err (.unrecognizedOpcode (t.M t.pc)), t) := by
  obtain ⟨hlda, hldx⟩ := decodeTable_eq_none_iff.1 hd
  exact if_neg (not_or.2 ⟨hlda, hldx⟩)

/-- R113's pseudocode on a program that fits. -/
theorem Record.load_accepted {p : List Byte} (fits : p.length ≤ Config.memorySize) (t : Record) :
    t.load p = (.loaded, { t with M := fun a => p.getD a.val (t.M a) }) :=
  if_neg (Nat.not_lt.2 fits)

/-- R114's pseudocode on a program that is too long. -/
theorem Record.load_rejected {p : List Byte} (tooLong : Config.memorySize < p.length) (t : Record) :
    t.load p = (.loadError (.programTooLarge p.length Config.memorySize), t) :=
  if_pos tooLong

/-- The host's call of one step commutes with reading the state as the record. -/
theorem recordOf_executeOneInstruction (s : State) :
    (recordOf s).step = ((executeOneInstruction s).1, recordOf (executeOneInstruction s).2) := by
  cases hd : decodeTable (s.readByte s.pc) with
  | none =>
    rw [(Machine.step_unlisted hd).2]
    exact Record.step_unlisted (t := recordOf s) hd
  | some e =>
    obtain ⟨t, -, he, executed⟩ := Machine.step_listed hd
    rw [he, recordOf_of_executed executed]
    exact Record.step_listed (t := recordOf s) hd

/-- The host's load commutes with reading the state as the record. -/
theorem recordOf_loadProgram (p : List Byte) (s : State) :
    (recordOf s).load p = ((Machine.serve (.loadProgram p) s).1, recordOf (Machine.serve (.loadProgram p) s).2) := by
  rcases Nat.lt_or_ge Config.memorySize p.length with tooLong | fits
  · rw [serve_loadProgram_rejected tooLong, Record.load_rejected tooLong]
  · rw [serve_loadProgram_accepted fits, Record.load_accepted fits, recordOf_copyIn]

/-- Every host operation commutes with reading the state as the record. -/
theorem recordOf_serve (q : Request) (s : State) :
    (recordOf s).serve q = ((Machine.serve q s).1, recordOf (Machine.serve q s).2) := by
  cases q with
  | loadProgram p => exact recordOf_loadProgram p s
  | executeOneInstruction =>
    simp only [Record.serve, Machine.serve, recordOf_executeOneInstruction]
  | readRegister | readPc | readFlag | readMemory => rfl

/-- From every state the machine's answers are those of its record. -/
theorem answers_recordOf (requests : List Request) (s : State) :
    (serveAll requests s).1 = Record.answers requests (recordOf s) := by
  induction requests generalizing s with
  | nil => rfl
  | cons q rest ih =>
    rw [Record.answers, recordOf_serve, ← ih]
    rfl

end Sys2Proof.Safety
end

section
/-!
PROOFS. The obligations that hold the machine against the spec's pseudocode over R10's record.
-/

namespace Sys2Proof.Safety

open Sys2Proof.Machine

/-- Settles O41: by cases on the operation, with the step's and the load's own commutation. -/
theorem operationsCommuteWithTheRecord : Obligations.OperationsCommuteWithTheRecord := by
  intro q s
  rw [recordOf_serve]
  exact ⟨rfl, rfl⟩

/-- Settles O40: the answers from any state are its record's, and the zeroed state's record is the zeroed one. -/
theorem hostSeesThePseudocode : Obligations.HostSeesThePseudocode := fun requests =>
  recordOf_reset ▸ answers_recordOf requests State.reset

end Sys2Proof.Safety
end
